-- ==== Sys2Proof/Word.lean ====
section
/-! DEFINITION. The word types of the hardware: every datum is one byte, every address register one 16-bit word. -/

namespace Sys2Proof

/-- One byte: a V register, a timer, a memory cell (10_state.md R20, R32, R34). -/
abbrev Byte := BitVec 8

/-- One 16-bit word: an instruction, PC, I, SP, a stack entry (10_state.md R23, R24, R26, R29, R30). -/
abbrev Word := BitVec 16

/-- The index of a V register, 0..15 (10_state.md R20). -/
abbrev Reg := Fin 16

end Sys2Proof
end

