-- ==== Sys2Proof/Syntax.lean ====
section
/-! DEFINITION. The 34 instructions of 30_encoding.md R94, one constructor for each row of the opcode map. -/

namespace Sys2Proof

/-- The instruction set. `x` and `y` name V registers, `b` is the 8-bit immediate `byte`, `a` the 12-bit
immediate `addr`, `n` the sprite height (00_scope.md R7, 30_encoding.md R92). -/
inductive Instr where
  /-- `00E0` CLS -/
  | cls
  /-- `00EE` RET -/
  | ret
  /-- `1NNN` JP addr -/
  | jpAddr (a : BitVec 12)
  /-- `2NNN` CALL addr -/
  | callAddr (a : BitVec 12)
  /-- `3XNN` SE Vx, byte -/
  | seVxByte (x : Reg) (b : Byte)
  /-- `4XNN` SNE Vx, byte -/
  | sneVxByte (x : Reg) (b : Byte)
  /-- `5XY0` SE Vx, Vy -/
  | seVxVy (x y : Reg)
  /-- `6XNN` LD Vx, byte -/
  | ldVxByte (x : Reg) (b : Byte)
  /-- `7XNN` ADD Vx, byte -/
  | addVxByte (x : Reg) (b : Byte)
  /-- `8XY0` LD Vx, Vy -/
  | ldVxVy (x y : Reg)
  /-- `8XY1` OR Vx, Vy -/
  | orVxVy (x y : Reg)
  /-- `8XY2` AND Vx, Vy -/
  | andVxVy (x y : Reg)
  /-- `8XY3` XOR Vx, Vy -/
  | xorVxVy (x y : Reg)
  /-- `8XY4` ADD Vx, Vy -/
  | addVxVy (x y : Reg)
  /-- `8XY5` SUB Vx, Vy -/
  | subVxVy (x y : Reg)
  /-- `8XY6` SHR Vx; `y` is decoded and ignored (42_load_alu.md R168) -/
  | shrVx (x y : Reg)
  /-- `8XY7` SUBN Vx, Vy -/
  | subnVxVy (x y : Reg)
  /-- `8XYE` SHL Vx; `y` is decoded and ignored (42_load_alu.md R170) -/
  | shlVx (x y : Reg)
  /-- `9XY0` SNE Vx, Vy -/
  | sneVxVy (x y : Reg)
  /-- `ANNN` LD I, addr -/
  | ldIAddr (a : BitVec 12)
  /-- `BNNN` JP V0, addr -/
  | jpV0Addr (a : BitVec 12)
  /-- `CXNN` RND Vx, byte -/
  | rndVxByte (x : Reg) (b : Byte)
  /-- `DXYN` DRW Vx, Vy, nibble -/
  | drwVxVyN (x y : Reg) (n : Nat)
  /-- `EX9E` SKP Vx -/
  | skpVx (x : Reg)
  /-- `EXA1` SKNP Vx -/
  | sknpVx (x : Reg)
  /-- `FX07` LD Vx, DT -/
  | ldVxDt (x : Reg)
  /-- `FX0A` LD Vx, K -/
  | ldVxK (x : Reg)
  /-- `FX15` LD DT, Vx -/
  | ldDtVx (x : Reg)
  /-- `FX18` LD ST, Vx -/
  | ldStVx (x : Reg)
  /-- `FX1E` ADD I, Vx -/
  | addIVx (x : Reg)
  /-- `FX29` LD F, Vx -/
  | ldFVx (x : Reg)
  /-- `FX33` LD B, Vx -/
  | ldBVx (x : Reg)
  /-- `FX55` LD [I], Vx -/
  | ldMemVx (x : Reg)
  /-- `FX65` LD Vx, [I] -/
  | ldVxMem (x : Reg)
  deriving DecidableEq, Repr

end Sys2Proof
end

