-- ==== Sys2Proof/WellFormed.lean ====
section
/-! DEFINITION. Which terms of `Instr` the hardware can encode: the types bound every operand but the sprite
height, which is 4 bits wide (30_encoding.md R92). -/

namespace Sys2Proof

/-- The one check: the sprite height of `DXYN` is at most 15 ("`n` is a 4-bit unsigned immediate (sprite height
0..15)", 30_encoding.md R92). -/
def Instr.wellFormed : Instr → Bool
  | .cls => true
  | .ret => true
  | .jpAddr _ => true
  | .callAddr _ => true
  | .seVxByte _ _ => true
  | .sneVxByte _ _ => true
  | .seVxVy _ _ => true
  | .ldVxByte _ _ => true
  | .addVxByte _ _ => true
  | .ldVxVy _ _ => true
  | .orVxVy _ _ => true
  | .andVxVy _ _ => true
  | .xorVxVy _ _ => true
  | .addVxVy _ _ => true
  | .subVxVy _ _ => true
  | .shrVx _ _ => true
  | .subnVxVy _ _ => true
  | .shlVx _ _ => true
  | .sneVxVy _ _ => true
  | .ldIAddr _ => true
  | .jpV0Addr _ => true
  | .rndVxByte _ _ => true
  | .drwVxVyN _ _ n => decide (n < 16)
  | .skpVx _ => true
  | .sknpVx _ => true
  | .ldVxDt _ => true
  | .ldVxK _ => true
  | .ldDtVx _ => true
  | .ldStVx _ => true
  | .addIVx _ => true
  | .ldFVx _ => true
  | .ldBVx _ => true
  | .ldMemVx _ => true
  | .ldVxMem _ => true

end Sys2Proof
end

