-- ==== Sys2Proof/Decode.lean ====
section
/-! DEFINITION. The decoder, total on any bytes and rejecting by name, then the encoder and the opcode map, each
written from 30_encoding.md. -/

namespace Sys2Proof

/-! ## The fields of an instruction word (00_scope.md R7, 30_encoding.md R91) -/

/-- `group = w[15:12]`. -/
def fieldGroup (w : Word) : BitVec 4 := w.extractLsb' 12 4

/-- `x = w[11:8]`, a register index. -/
def fieldX (w : Word) : Reg := (w.extractLsb' 8 4).toFin

/-- `y = w[7:4]`, a register index. -/
def fieldY (w : Word) : Reg := (w.extractLsb' 4 4).toFin

/-- `n = w[3:0]`. -/
def fieldN (w : Word) : BitVec 4 := w.extractLsb' 0 4

/-- `byte = w[7:0]`. -/
def fieldByte (w : Word) : Byte := w.extractLsb' 0 8

/-- `addr = w[11:0]`. -/
def fieldAddr (w : Word) : BitVec 12 := w.extractLsb' 0 12

/-! ## Decoding (30_encoding.md R93 to R97) -/

/-- Why the decoder refuses. -/
inductive DecodeReject where
  /-- fewer than the two bytes of an instruction are there (30_encoding.md R90) -/
  | truncated
  /-- the word is one of the illegal words of 30_encoding.md R95 -/
  | unknownOpcode (w : Word)
  deriving DecidableEq, Repr

/-- The handlers of group 0, keyed by the whole word (30_encoding.md R93). -/
def decodeGroup0 (w : Word) : Except DecodeReject Instr :=
  if w = 0x00E0#16 then .ok .cls
  else if w = 0x00EE#16 then .ok .ret
  else .error (.unknownOpcode w)

/-- The handlers of group 8, keyed by `n` (30_encoding.md R93). -/
def decodeGroup8 (w : Word) : Except DecodeReject Instr :=
  match fieldN w with
  | 0x0#4 => .ok (.ldVxVy (fieldX w) (fieldY w))
  | 0x1#4 => .ok (.orVxVy (fieldX w) (fieldY w))
  | 0x2#4 => .ok (.andVxVy (fieldX w) (fieldY w))
  | 0x3#4 => .ok (.xorVxVy (fieldX w) (fieldY w))
  | 0x4#4 => .ok (.addVxVy (fieldX w) (fieldY w))
  | 0x5#4 => .ok (.subVxVy (fieldX w) (fieldY w))
  | 0x6#4 => .ok (.shrVx (fieldX w) (fieldY w))
  | 0x7#4 => .ok (.subnVxVy (fieldX w) (fieldY w))
  | 0xE#4 => .ok (.shlVx (fieldX w) (fieldY w))
  | _ => .error (.unknownOpcode w)

/-- The handlers of group E, keyed by `byte` (30_encoding.md R93). -/
def decodeGroupE (w : Word) : Except DecodeReject Instr :=
  match fieldByte w with
  | 0x9E#8 => .ok (.skpVx (fieldX w))
  | 0xA1#8 => .ok (.sknpVx (fieldX w))
  | _ => .error (.unknownOpcode w)

/-- The handlers of group F, keyed by `byte` (30_encoding.md R93). -/
def decodeGroupF (w : Word) : Except DecodeReject Instr :=
  match fieldByte w with
  | 0x07#8 => .ok (.ldVxDt (fieldX w))
  | 0x0A#8 => .ok (.ldVxK (fieldX w))
  | 0x15#8 => .ok (.ldDtVx (fieldX w))
  | 0x18#8 => .ok (.ldStVx (fieldX w))
  | 0x1E#8 => .ok (.addIVx (fieldX w))
  | 0x29#8 => .ok (.ldFVx (fieldX w))
  | 0x33#8 => .ok (.ldBVx (fieldX w))
  | 0x55#8 => .ok (.ldMemVx (fieldX w))
  | 0x65#8 => .ok (.ldVxMem (fieldX w))
  | _ => .error (.unknownOpcode w)

/-- The decoder: the group selects one of 16 handlers, and a word without a handler is rejected with its value
(30_encoding.md R93, R95, R97). It looks at nothing but the word. -/
def decode (w : Word) : Except DecodeReject Instr :=
  match fieldGroup w with
  | 0x0#4 => decodeGroup0 w
  | 0x1#4 => .ok (.jpAddr (fieldAddr w))
  | 0x2#4 => .ok (.callAddr (fieldAddr w))
  | 0x3#4 => .ok (.seVxByte (fieldX w) (fieldByte w))
  | 0x4#4 => .ok (.sneVxByte (fieldX w) (fieldByte w))
  | 0x5#4 => if fieldN w = 0#4 then .ok (.seVxVy (fieldX w) (fieldY w)) else .error (.unknownOpcode w)
  | 0x6#4 => .ok (.ldVxByte (fieldX w) (fieldByte w))
  | 0x7#4 => .ok (.addVxByte (fieldX w) (fieldByte w))
  | 0x8#4 => decodeGroup8 w
  | 0x9#4 => if fieldN w = 0#4 then .ok (.sneVxVy (fieldX w) (fieldY w)) else .error (.unknownOpcode w)
  | 0xA#4 => .ok (.ldIAddr (fieldAddr w))
  | 0xB#4 => .ok (.jpV0Addr (fieldAddr w))
  | 0xC#4 => .ok (.rndVxByte (fieldX w) (fieldByte w))
  | 0xD#4 => .ok (.drwVxVyN (fieldX w) (fieldY w) (fieldN w).toNat)
  | 0xE#4 => decodeGroupE w
  | 0xF#4 => decodeGroupF w
  | _ => .error (.unknownOpcode w)

/-- The word that two bytes make when fetched: big-endian, the first byte is bits 15..8 (20_memory.md R65). -/
def wordOfBytes (hi lo : Byte) : Word := hi ++ lo

/-- The bytes of a word as memory holds them, ascending (20_memory.md R65). -/
def bytesOfWord (w : Word) : List Byte := [w.extractLsb' 8 8, w.extractLsb' 0 8]

/-- Decoding a run of bytes: the instruction of the first two and what is left (30_encoding.md R90). -/
def decodeBytes : List Byte → Except DecodeReject (Instr × List Byte)
  | hi :: lo :: rest =>
    match decode (wordOfBytes hi lo) with
    | .ok i => .ok (i, rest)
    | .error e => .error e
  | [_] => .error .truncated
  | [] => .error .truncated

/-- The bytes, as memory holds them, of an instruction that the opcode table gives as `nbits` bits of value `w`
(bit 0 the least significant bit of its one 16-bit word; bits from `nbits` on are 0). -/
def tableBytes (nbits w : Nat) : List Byte := bytesOfWord (BitVec.ofNat 16 (w % 2 ^ nbits))

/-- What the decoder reads from an instruction numbered as spec/opcode_table.json numbers it. -/
def decodeTableWord (nbits w : Nat) : Option Instr :=
  match decodeBytes (tableBytes nbits w) with
  | .ok (i, _) => some i
  | .error _ => none

/-! ## Encoding (30_encoding.md R91, R94) -/

/-- The four bits of a register field. -/
def regBits (r : Reg) : BitVec 4 := BitVec.ofFin r

/-- Format ADDR: group, addr. -/
def formatAddr (g : BitVec 4) (a : BitVec 12) : Word := g ++ a

/-- Format XBYTE: group, x, byte; with a fixed byte it is format X. -/
def formatXByte (g : BitVec 4) (x : Reg) (b : Byte) : Word := g ++ regBits x ++ b

/-- Format XYN: group, x, y, n; with a fixed n it is format XY. -/
def formatXYN (g : BitVec 4) (x y : Reg) (n : BitVec 4) : Word := g ++ regBits x ++ regBits y ++ n

/-- The word of an instruction (30_encoding.md R91, R94). -/
def encode : Instr → Word
  | .cls => 0x00E0#16
  | .ret => 0x00EE#16
  | .jpAddr a => formatAddr 0x1#4 a
  | .callAddr a => formatAddr 0x2#4 a
  | .seVxByte x b => formatXByte 0x3#4 x b
  | .sneVxByte x b => formatXByte 0x4#4 x b
  | .seVxVy x y => formatXYN 0x5#4 x y 0x0#4
  | .ldVxByte x b => formatXByte 0x6#4 x b
  | .addVxByte x b => formatXByte 0x7#4 x b
  | .ldVxVy x y => formatXYN 0x8#4 x y 0x0#4
  | .orVxVy x y => formatXYN 0x8#4 x y 0x1#4
  | .andVxVy x y => formatXYN 0x8#4 x y 0x2#4
  | .xorVxVy x y => formatXYN 0x8#4 x y 0x3#4
  | .addVxVy x y => formatXYN 0x8#4 x y 0x4#4
  | .subVxVy x y => formatXYN 0x8#4 x y 0x5#4
  | .shrVx x y => formatXYN 0x8#4 x y 0x6#4
  | .subnVxVy x y => formatXYN 0x8#4 x y 0x7#4
  | .shlVx x y => formatXYN 0x8#4 x y 0xE#4
  | .sneVxVy x y => formatXYN 0x9#4 x y 0x0#4
  | .ldIAddr a => formatAddr 0xA#4 a
  | .jpV0Addr a => formatAddr 0xB#4 a
  | .rndVxByte x b => formatXByte 0xC#4 x b
  | .drwVxVyN x y n => formatXYN 0xD#4 x y (BitVec.ofNat 4 n)
  | .skpVx x => formatXByte 0xE#4 x 0x9E#8
  | .sknpVx x => formatXByte 0xE#4 x 0xA1#8
  | .ldVxDt x => formatXByte 0xF#4 x 0x07#8
  | .ldVxK x => formatXByte 0xF#4 x 0x0A#8
  | .ldDtVx x => formatXByte 0xF#4 x 0x15#8
  | .ldStVx x => formatXByte 0xF#4 x 0x18#8
  | .addIVx x => formatXByte 0xF#4 x 0x1E#8
  | .ldFVx x => formatXByte 0xF#4 x 0x29#8
  | .ldBVx x => formatXByte 0xF#4 x 0x33#8
  | .ldMemVx x => formatXByte 0xF#4 x 0x55#8
  | .ldVxMem x => formatXByte 0xF#4 x 0x65#8

/-! ## The opcode map (30_encoding.md R94) -/

/-- One row of the opcode map: `w` is this instruction exactly when `w & mask = pattern`. -/
structure OpcodeRow where
  /-- the `mask` column -/
  mask : Word
  /-- the `match` column -/
  pattern : Word
  deriving DecidableEq, Repr

/-- Whether a word is the row's instruction. -/
abbrev OpcodeRow.Matches (r : OpcodeRow) (w : Word) : Prop := w &&& r.mask = r.pattern

/-- The row of an instruction, its `mask` and `match` copied from 30_encoding.md R94. -/
def opcodeRow : Instr → OpcodeRow
  | .cls => ⟨0xFFFF, 0x00E0⟩
  | .ret => ⟨0xFFFF, 0x00EE⟩
  | .jpAddr _ => ⟨0xF000, 0x1000⟩
  | .callAddr _ => ⟨0xF000, 0x2000⟩
  | .seVxByte _ _ => ⟨0xF000, 0x3000⟩
  | .sneVxByte _ _ => ⟨0xF000, 0x4000⟩
  | .seVxVy _ _ => ⟨0xF00F, 0x5000⟩
  | .ldVxByte _ _ => ⟨0xF000, 0x6000⟩
  | .addVxByte _ _ => ⟨0xF000, 0x7000⟩
  | .ldVxVy _ _ => ⟨0xF00F, 0x8000⟩
  | .orVxVy _ _ => ⟨0xF00F, 0x8001⟩
  | .andVxVy _ _ => ⟨0xF00F, 0x8002⟩
  | .xorVxVy _ _ => ⟨0xF00F, 0x8003⟩
  | .addVxVy _ _ => ⟨0xF00F, 0x8004⟩
  | .subVxVy _ _ => ⟨0xF00F, 0x8005⟩
  | .shrVx _ _ => ⟨0xF00F, 0x8006⟩
  | .subnVxVy _ _ => ⟨0xF00F, 0x8007⟩
  | .shlVx _ _ => ⟨0xF00F, 0x800E⟩
  | .sneVxVy _ _ => ⟨0xF00F, 0x9000⟩
  | .ldIAddr _ => ⟨0xF000, 0xA000⟩
  | .jpV0Addr _ => ⟨0xF000, 0xB000⟩
  | .rndVxByte _ _ => ⟨0xF000, 0xC000⟩
  | .drwVxVyN _ _ _ => ⟨0xF000, 0xD000⟩
  | .skpVx _ => ⟨0xF0FF, 0xE09E⟩
  | .sknpVx _ => ⟨0xF0FF, 0xE0A1⟩
  | .ldVxDt _ => ⟨0xF0FF, 0xF007⟩
  | .ldVxK _ => ⟨0xF0FF, 0xF00A⟩
  | .ldDtVx _ => ⟨0xF0FF, 0xF015⟩
  | .ldStVx _ => ⟨0xF0FF, 0xF018⟩
  | .addIVx _ => ⟨0xF0FF, 0xF01E⟩
  | .ldFVx _ => ⟨0xF0FF, 0xF029⟩
  | .ldBVx _ => ⟨0xF0FF, 0xF033⟩
  | .ldMemVx _ => ⟨0xF0FF, 0xF055⟩
  | .ldVxMem _ => ⟨0xF0FF, 0xF065⟩

/-- The instructions of the opcode map, each with zero operands: one for each row, in the map's order. -/
def opcodeMap : List Instr :=
  [.cls, .ret, .jpAddr 0, .callAddr 0, .seVxByte 0 0, .sneVxByte 0 0, .seVxVy 0 0, .ldVxByte 0 0] ++
  [.addVxByte 0 0, .ldVxVy 0 0, .orVxVy 0 0, .andVxVy 0 0, .xorVxVy 0 0, .addVxVy 0 0, .subVxVy 0 0] ++
  [.shrVx 0 0, .subnVxVy 0 0, .shlVx 0 0, .sneVxVy 0 0, .ldIAddr 0, .jpV0Addr 0, .rndVxByte 0 0] ++
  [.drwVxVyN 0 0 0, .skpVx 0, .sknpVx 0, .ldVxDt 0, .ldVxK 0, .ldDtVx 0, .ldStVx 0, .addIVx 0] ++
  [.ldFVx 0, .ldBVx 0, .ldMemVx 0, .ldVxMem 0]

end Sys2Proof
end

