-- ==== Sys2Proof/Config.lean ====
section
/-! DEFINITION. What is fixed when a core is built (00_scope.md R5), and the one free value of the spec, the random byte of `CXNN`. -/

namespace Sys2Proof

/-- The open parameters of 00_scope.md R5. A core keeps the ones it was built with (10_state.md R41). -/
structure Config where
  /-- MEM_SIZE, the number of bytes of memory (20_memory.md R60, decision D1). -/
  memSize : Nat
  /-- STACK_LIMIT, the most entries the call stack holds (10_state.md R30, decision D5). -/
  stackLimit : Nat
  /-- FONT, the 80 bytes at 0x000..0x04F after a cold reset (20_memory.md R72, decision D4). -/
  font : Vector Byte 80
  deriving DecidableEq, Repr

namespace Config

/-- The bounds 20_memory.md R60 puts on MEM_SIZE. -/
abbrev WellFormed (c : Config) : Prop := 0x202 ≤ c.memSize ∧ c.memSize ≤ 65536

/-- The digits 0 to 7 of the standard font (20_memory.md R72). -/
def glyphs0to7 : List Byte :=
  [0xF0, 0x90, 0x90, 0x90, 0xF0] ++ [0x20, 0x60, 0x20, 0x20, 0x70] ++
  [0xF0, 0x10, 0xF0, 0x80, 0xF0] ++ [0xF0, 0x10, 0xF0, 0x10, 0xF0] ++
  [0x90, 0x90, 0xF0, 0x10, 0x10] ++ [0xF0, 0x80, 0xF0, 0x10, 0xF0] ++
  [0xF0, 0x80, 0xF0, 0x90, 0xF0] ++ [0xF0, 0x10, 0x20, 0x40, 0x40]

/-- The digits 8 to F of the standard font (20_memory.md R72). -/
def glyphs8toF : List Byte :=
  [0xF0, 0x90, 0xF0, 0x90, 0xF0] ++ [0xF0, 0x90, 0xF0, 0x10, 0xF0] ++
  [0xF0, 0x90, 0xF0, 0x90, 0x90] ++ [0xE0, 0x90, 0xE0, 0x90, 0xE0] ++
  [0xF0, 0x80, 0x80, 0x80, 0xF0] ++ [0xE0, 0x90, 0x90, 0x90, 0xE0] ++
  [0xF0, 0x80, 0xF0, 0x80, 0xF0] ++ [0xF0, 0x80, 0xF0, 0x80, 0x80]

/-- The standard hexadecimal font, the default of FONT. -/
def standardFont : Vector Byte 80 := ⟨(glyphs0to7 ++ glyphs8toF).toArray, rfl⟩

/-- The defaults of 00_scope.md R5. DESIGN CHOICE (log 1): `State.reset` is a core built with them. -/
def standard : Config := { memSize := 4096, stackLimit := 16, font := standardFont }

/-- PROGRAM_START, where both resets put PC and where `load` goes by default (00_scope.md R5). -/
abbrev programStart : Word := 0x200

/-- FONT_BASE (00_scope.md R5). -/
abbrev fontBase : Word := 0x000

/-- The first address `load` accepts, one past FONT_LAST (46_host_commands.md R256). -/
abbrev loadFloor : Nat := 0x050

/-- FREE VALUE (log 2). The byte that the random source gives at draw number `n`: 42_load_alu.md R171 puts it
"under no law", so nothing about it can be proved. -/
opaque randomByte : Nat → Byte

end Config

end Sys2Proof
end

