-- ==== Sys2Proof/Machine/State.lean ====
section
/-! DEFINITION. All the state the spec gives the core (10_state.md R20 to R44), as plain data, and its value after a
cold reset. -/

namespace Sys2Proof.Machine

/-- The four conditions a step can raise (60_exceptions.md R270). `State.raise` records one in the fault latch and the
core halts: a NEXT state, with nothing lost (log 3). No meaning and no step answers `Host.Outcome.fault` with one. Safe:
a faulted core runs no instruction until a reset. -/
inductive Fault where
  /-- Raised by the two fetch reads, the sprite reads of `DXYN`, the writes of `FX33` and `FX55` and the reads of `FX65`,
  at an address `a >= MEM_SIZE` (60_exceptions.md R271). Safe. -/
  | addressOutOfRange (a : Nat)
  /-- Raised at decode by an illegal word (60_exceptions.md R272). Safe. -/
  | unknownOpcode (w : Word)
  /-- Raised by `00EE` with an empty call stack (60_exceptions.md R273). Safe. -/
  | stackUnderflow
  /-- Raised by `2NNN` with a full call stack (60_exceptions.md R274). Safe. -/
  | stackOverflow
  deriving DecidableEq, Repr

/-- Why the model gives an instruction no meaning. -/
inductive Refusal where
  /-- Answered by an arm of `exec` whose instruction has no meaning yet; no arm is one. Safe. -/
  | notModelled (mnemonic : String)
  deriving DecidableEq, Repr

/-- Memory as a list of cells in canonical form: addresses strictly rising, no cell equal to what an unlisted address
reads as (`Memory.wf`). -/
abbrev Memory := List Host.Cell

/-- The display buffer: 32 rows from the top of 64 columns from the left (10_state.md R36). -/
abbrev Display := Vector (Vector Bool 64) 32

/-- The state of the core. -/
structure State where
  /-- V0..VF (10_state.md R20) -/
  v : Vector Byte 16
  /-- I (10_state.md R23) -/
  i : Word
  /-- SP, which nothing uses (10_state.md R24) -/
  sp : Word
  /-- PC, the address of the next instruction (10_state.md R26) -/
  pc : Word
  /-- IR, the word last fetched (10_state.md R29) -/
  ir : Word
  /-- the call stack, the entry pushed last at the head (10_state.md R30, log 8) -/
  stack : List Word
  /-- DT (10_state.md R32) -/
  dt : Byte
  /-- ST (10_state.md R32) -/
  st : Byte
  /-- tone_stop (10_state.md R33) -/
  toneStop : Bool
  /-- the bytes of memory that differ from their cold-reset contents (10_state.md R34, log 4) -/
  mem : Memory
  /-- disp[r][c] (10_state.md R36) -/
  disp : Display
  /-- dirty (10_state.md R37) -/
  dirty : Bool
  /-- keys, bit k set exactly when key k is pressed (10_state.md R38) -/
  keys : BitVec 16
  /-- faulted (10_state.md R40) -/
  faulted : Bool
  /-- fault_code (10_state.md R40, 60_exceptions.md R270) -/
  faultCode : BitVec 3
  /-- fault_info (10_state.md R40, 60_exceptions.md R270) -/
  faultInfo : BitVec 17
  /-- the MODEL's own field: how many random bytes have been drawn (42_load_alu.md R171, log 2) -/
  draws : Nat
  /-- the MODEL's own carrier of the parameters the core was built with (00_scope.md R5, log 1) -/
  cfg : Config
  deriving DecidableEq, Repr

/-- The blank display. -/
def Display.blank : Display := Vector.replicate 32 (Vector.replicate 64 false)

/-- Power-on of a core built with the parameters `c` (10_state.md R44, 70_reset_and_hazards.md R313). No cell is listed:
memory holds FONT and zeros. `draws := 0` is a DESIGN CHOICE (log 2). -/
def State.coldReset (c : Config) : State where
  v := Vector.replicate 16 0
  i := 0
  sp := 0
  pc := Config.programStart
  ir := 0
  stack := []
  dt := 0
  st := 0
  toneStop := false
  mem := []
  disp := Display.blank
  dirty := true
  keys := 0
  faulted := false
  faultCode := 0
  faultInfo := 0
  draws := 0
  cfg := c

/-- The machine right after power-on, with the default parameters of 00_scope.md R5 (DESIGN CHOICE, log 1). -/
def State.reset : State := State.coldReset Config.standard

end Sys2Proof.Machine
end

