-- ==== Sys2Proof/Machine/Ops.lean ====
section
/-! DEFINITION. The named operations over memory, registers, the call stack and the display, raising a fault, and the
soft reset, which is the one way out of it. -/

namespace Sys2Proof.Machine

/-! ## Memory as data (20_memory.md R60, R61, R72, R73) -/

/-- What an unlisted address reads as: its cold-reset contents, FONT at 0x000..0x04F and 0 elsewhere (10_state.md R44). -/
def Memory.unlisted (c : Config) (a : Nat) : Byte := if h : a < 80 then c.font[a] else 0

/-- The byte listed at an address, if one is. -/
def Memory.entry : Memory → Nat → Option Byte
  | [], _ => none
  | (k, b) :: m, a => if k = a then some b else Memory.entry m a

/-- The byte at an address. -/
def Memory.read (c : Config) (m : Memory) (a : Nat) : Byte := (m.entry a).getD (Memory.unlisted c a)

/-- The list with the entry of one address set (`some`) or left out (`none`), the order kept. -/
def Memory.put : Memory → Nat → Option Byte → Memory
  | [], _, none => []
  | [], a, some b => [(a, b)]
  | (k, x) :: m, a, e =>
    if k < a then (k, x) :: Memory.put m a e
    else
      let rest := if k = a then m else (k, x) :: m
      match e with
      | none => rest
      | some b => (a, b) :: rest

/-- The memory with one byte changed; a byte equal to what an unlisted address reads as is not listed. -/
def Memory.write (c : Config) (m : Memory) (a : Nat) (b : Byte) : Memory :=
  m.put a (if b = Memory.unlisted c a then none else some b)

/-- The memory with a run of bytes written from an address upward. -/
def Memory.writeAll (c : Config) (m : Memory) (a : Nat) : List Byte → Memory
  | [] => m
  | b :: bs => Memory.writeAll c (Memory.write c m a b) (a + 1) bs

/-- The canonical form: addresses strictly rising and below MEM_SIZE, no cell equal to what its address would read as
unlisted. -/
abbrev Memory.wf (c : Config) (m : Memory) : Prop :=
  m.Pairwise (fun p q => p.1 < q.1) ∧ ∀ p ∈ m, p.1 < c.memSize ∧ p.2 ≠ Memory.unlisted c p.1

/-! ## Registers (10_state.md R20, R21) -/

/-- VF, the register that doubles as the flag (10_state.md R22). -/
abbrev regVF : Reg := 15

/-- `V[r]`. -/
def State.getV (s : State) (r : Reg) : Byte := s.v[r.val]

/-- `V[r] <- b`. -/
def State.setV (s : State) (r : Reg) (b : Byte) : State := { s with v := s.v.set r.val b }

/-- `PC <- a`. -/
def State.setPc (s : State) (a : Word) : State := { s with pc := a }

/-- `PC <- (PC + 2) mod 2^16`: the advance of 40_step_cycle.md R122 and the skip of 41_control_flow.md R150. -/
def State.skip (s : State) : State := s.setPc (s.pc + 2)

/-- `I <- a`. -/
def State.setI (s : State) (a : Word) : State := { s with i := a }

/-! ## The bus (20_memory.md R61 to R64) -/

/-- The byte memory holds at an address, without the range check: what an observer of memory sees. -/
def State.byteAt (s : State) (a : Nat) : Byte := Memory.read s.cfg s.mem a

/-- `MemRead(a, 1)` (00_scope.md R8): an address at or beyond MEM_SIZE raises AddressOutOfRange (20_memory.md R62). -/
def State.memRead (s : State) (a : Nat) : Except Fault Byte :=
  if a < s.cfg.memSize then .ok (s.byteAt a) else .error (.addressOutOfRange a)

/-- `MemWrite(a, 1, b)` (00_scope.md R8). -/
def State.memWrite (s : State) (a : Nat) (b : Byte) : Except Fault State :=
  if a < s.cfg.memSize then .ok { s with mem := Memory.write s.cfg s.mem a b } else .error (.addressOutOfRange a)

/-! ## Raising a fault, and the reset that ends it (60_exceptions.md R270, R275, R282) -/

/-- The numeric code of a fault (60_exceptions.md R270). -/
def Fault.code : Fault → BitVec 3
  | .addressOutOfRange _ => 1
  | .unknownOpcode _ => 2
  | .stackUnderflow => 3
  | .stackOverflow => 4

/-- The information recorded with a fault (60_exceptions.md R270). -/
def Fault.info : Fault → BitVec 17
  | .addressOutOfRange a => BitVec.ofNat 17 a
  | .unknownOpcode w => w.setWidth 17
  | .stackUnderflow => 0
  | .stackOverflow => 0

/-- `raise F(info)`: the latch is set and everything else stays as the earlier statements of the step left it
(60_exceptions.md R275). That the step ends here is said where it is called. -/
def State.raise (s : State) (f : Fault) : State :=
  { s with faulted := true, faultCode := f.code, faultInfo := f.info }

/-- The soft reset (70_reset_and_hazards.md R311): memory and `keys` stay (R312), and so do the model's own `draws`
(DESIGN CHOICE, log 2) and `cfg`. It is the only way out of a fault (60_exceptions.md R282). -/
def State.softReset (s : State) : State :=
  { State.coldReset s.cfg with mem := s.mem, keys := s.keys, draws := s.draws }

/-! ## The call stack (10_state.md R30) -/

/-- `push(a)`. -/
def State.push (s : State) (a : Word) : Except Fault State :=
  if s.stack.length < s.cfg.stackLimit then .ok { s with stack := a :: s.stack } else .error .stackOverflow

/-- `pop()`: the value and the state without it. -/
def State.pop (s : State) : Except Fault (Word × State) :=
  match s.stack with
  | a :: rest => .ok (a, { s with stack := rest })
  | [] => .error .stackUnderflow

/-! ## Runs of byte accesses, each checked when it is made (20_memory.md R64) -/

/-- `MemWrite(a, 1, b0); MemWrite(a + 1, 1, b1); ...`: the first address out of range raises, the bytes before it stay
written (60_exceptions.md R275). -/
def State.storeBytes (s : State) (a : Nat) : List Byte → State
  | [] => s
  | b :: bs =>
    match s.memWrite a b with
    | .ok t => State.storeBytes t (a + 1) bs
    | .error f => s.raise f

/-- `V[r0] <- MemRead(a, 1); V[r1] <- MemRead(a + 1, 1); ...`: the first address out of range raises, the registers
before it stay loaded (60_exceptions.md R275). -/
def State.loadRegs (s : State) (a : Nat) : List Reg → State
  | [] => s
  | r :: rs =>
    match s.memRead a with
    | .ok b => State.loadRegs (s.setV r b) (a + 1) rs
    | .error f => s.raise f

/-- `n` bytes read from address `a` upward, the first address out of range raising (44_display.md R215). -/
def State.readBytes (s : State) (a : Nat) : Nat → Except Fault (List Byte)
  | 0 => .ok []
  | n + 1 =>
    match s.memRead a with
    | .error f => .error f
    | .ok b =>
      match s.readBytes (a + 1) n with
      | .error f => .error f
      | .ok bs => .ok (b :: bs)

/-! ## Display cells (10_state.md R36) -/

/-- `disp[r][c]`. -/
def State.cell (s : State) (r : Fin 32) (c : Fin 64) : Bool := s.disp[r.val][c.val]

/-- `disp[r][c] <- p`. -/
def State.setCell (s : State) (r : Fin 32) (c : Fin 64) (p : Bool) : State :=
  { s with disp := s.disp.set r.val (s.disp[r.val].set c.val p) }

/-- `for r: for c: disp[r][c] <- 0; dirty <- 1`, the display's `clear()` (44_display.md R210). -/
def State.clearDisplay (s : State) : State := { s with disp := Display.blank, dirty := true }

end Sys2Proof.Machine
end

