-- ==== Sys2Proof/Machine/Cycle.lean ====
section
/-! DEFINITION. The phases of a step around Execute (40_step_cycle.md R120 to R130): fetch, advance, decode, timer tick,
and the step of a halted core. -/

namespace Sys2Proof.Machine

/-- Fetch: the high byte at PC, then the low byte at the natural number PC + 1 (40_step_cycle.md R121). -/
def State.fetch (s : State) : Except Fault Word :=
  match s.memRead s.pc.toNat with
  | .error f => .error f
  | .ok hi =>
    match s.memRead (s.pc.toNat + 1) with
    | .error f => .error f
    | .ok lo => .ok (wordOfBytes hi lo)

/-- `tone_stop <- 0`, the first statement of a step (40_step_cycle.md R130). -/
def State.beginStep (s : State) : State := { s with toneStop := false }

/-- `IR <- w; PC <- (PC + 2) mod 2^16`, after a successful fetch (40_step_cycle.md R121, R122). -/
def State.advance (s : State) (w : Word) : State := { s with ir := w, pc := s.pc + 2 }

/-- A timer that counts down to 0 and stays there. -/
def countDown (t : Byte) : Byte := if t = 0 then 0 else t - 1

/-- The timer tick: `tone_stop` is 1 exactly when this tick takes ST from 1 to 0 (40_step_cycle.md R127). -/
def State.tick (s : State) : State :=
  { s with dt := countDown s.dt, st := countDown s.st, toneStop := decide (s.st = 1) }

/-- What the phases before Execute come to. -/
inductive Prepared where
  /-- the step ends here, in this state -/
  | ended (s : State)
  /-- the instruction to execute, and the state to execute it in -/
  | ready (i : Instr) (s : State)
  deriving DecidableEq, Repr

/-- The phases before Execute, in the order of 40_step_cycle.md R130. A halted core does nothing (R129); a fault of the
fetch or an illegal word ends the step (R121, R123). -/
def State.prepare (s : State) : Prepared :=
  if s.faulted then .ended s
  else
    let s1 := s.beginStep
    match s1.fetch with
    | .error f => .ended (s1.raise f)
    | .ok w =>
      let s2 := s1.advance w
      match decode w with
      | .error _ => .ended (s2.raise (.unknownOpcode w))
      | .ok i => .ready i s2

/-- The end of a step: the tick runs only if Execute raised no fault (40_step_cycle.md R127, R128). -/
def complete : Host.Outcome State Fault Refusal → Host.Outcome State Fault Refusal
  | .next t => .next (if t.faulted then t else t.tick)
  | .fault f => .fault f
  | .refused r => .refused r

/-- The state with the bytes of an instruction placed where the next fetch reads, if both addresses exist, and with the
fault latch clear, since a halted core does not fetch (log 5). -/
def State.placeAtPc (s : State) (bytes : List Byte) : State :=
  { s with
    mem := if s.pc.toNat + bytes.length ≤ s.cfg.memSize then Memory.writeAll s.cfg s.mem s.pc.toNat bytes else s.mem
    faulted := false
    faultCode := 0
    faultInfo := 0 }

end Sys2Proof.Machine
end

