-- ==== Sys2Proof/Machine/Operands.lean ====
section
/-! DEFINITION. The operand forms: immediates, effective addresses, register runs, BCD digits, glyph addresses, keys. -/

namespace Sys2Proof.Machine

/-- `zext_16(addr)` (30_encoding.md R92). -/
def zextAddr (a : BitVec 12) : Word := a.setWidth 16

/-- `zext_16` of a byte. -/
def zextByte (b : Byte) : Word := b.setWidth 16

/-- The effective address `I + k`, a natural number and never wrapped (43_index_memory.md R193, 20_memory.md R63). -/
def State.effectiveAddress (s : State) (k : Nat) : Nat := s.i.toNat + k

/-- The sixteen registers in ascending order. -/
def allRegs : List Reg := [0, 1, 2, 3, 4, 5, 6, 7] ++ [8, 9, 10, 11, 12, 13, 14, 15]

/-- V0 through Vx, x included (43_index_memory.md R195, R196). -/
def regsThrough (x : Reg) : List Reg := allRegs.take (x.val + 1)

/-- The hundreds, tens and ones digits of a byte, in that order (43_index_memory.md R194). -/
def bcdDigits (b : Byte) : List Byte :=
  [BitVec.ofNat 8 (b.toNat / 100), BitVec.ofNat 8 (b.toNat / 10 % 10), BitVec.ofNat 8 (b.toNat % 10)]

/-- `FONT_BASE + 5 * zext_16(b)`, the digit not masked to four bits (43_index_memory.md R192). -/
def glyphAddress (b : Byte) : Word := Config.fontBase + 5 * zextByte b

/-- `addr + V0`, kept to 16 bits (41_control_flow.md R143). -/
def offsetTarget (a : BitVec 12) (v0 : Byte) : Word := zextAddr a + zextByte v0

/-- `KEYMASK(k) = 1 << k`, for `k` in 0..15 (10_state.md R38). -/
def keyMask (k : Nat) : BitVec 16 := 1#16 <<< k

/-- `key(k)`: bit `k` of the latch, and not pressed for any `k` above 15 (10_state.md R38). -/
def keyPressed (keys : BitVec 16) (k : Nat) : Bool := decide (k < 16) && keys.getLsbD k

/-- The smallest pressed key, if one is pressed (45_keys_timers.md R232). -/
def lowestKey (keys : BitVec 16) : Option Nat := (List.range 16).find? (keyPressed keys)

/-- The random byte of this execution of `CXNN`: a FREE VALUE (42_load_alu.md R171, log 2). -/
def State.randomByte (s : State) : Byte := Config.randomByte s.draws

end Sys2Proof.Machine
end

