-- ==== Sys2Proof/Machine/ControlFlow.lean ====
section
/-! DEFINITION. The control-flow instructions of 41_control_flow.md: the Execute phase of each, with PC already
advanced (40_step_cycle.md R122, R131). -/

namespace Sys2Proof.Machine

/-- A skip if the condition holds (41_control_flow.md R150). -/
def State.skipIf (s : State) (c : Bool) : State := if c then s.skip else s

/-- `00EE` RET (41_control_flow.md R140). -/
def execRet (s : State) : Host.Outcome State Fault Refusal :=
  match s.pop with
  | .ok (a, t) => .next (t.setPc a)
  | .error f => .next (s.raise f)

/-- `1NNN` JP addr (41_control_flow.md R141). -/
def execJpAddr (a : BitVec 12) (s : State) : Host.Outcome State Fault Refusal :=
  .next (s.setPc (zextAddr a))

/-- `2NNN` CALL addr: the advanced PC is pushed (41_control_flow.md R142). -/
def execCallAddr (a : BitVec 12) (s : State) : Host.Outcome State Fault Refusal :=
  match s.push s.pc with
  | .ok t => .next (t.setPc (zextAddr a))
  | .error f => .next (s.raise f)

/-- `BNNN` JP V0, addr (41_control_flow.md R143). -/
def execJpV0Addr (a : BitVec 12) (s : State) : Host.Outcome State Fault Refusal :=
  .next (s.setPc (offsetTarget a (s.getV 0)))

/-- `3XNN` SE Vx, byte (41_control_flow.md R144). -/
def execSeVxByte (x : Reg) (b : Byte) (s : State) : Host.Outcome State Fault Refusal :=
  .next (s.skipIf (s.getV x == b))

/-- `4XNN` SNE Vx, byte (41_control_flow.md R145). -/
def execSneVxByte (x : Reg) (b : Byte) (s : State) : Host.Outcome State Fault Refusal :=
  .next (s.skipIf (s.getV x != b))

/-- `5XY0` SE Vx, Vy (41_control_flow.md R146). -/
def execSeVxVy (x y : Reg) (s : State) : Host.Outcome State Fault Refusal :=
  .next (s.skipIf (s.getV x == s.getV y))

/-- `9XY0` SNE Vx, Vy (41_control_flow.md R147). -/
def execSneVxVy (x y : Reg) (s : State) : Host.Outcome State Fault Refusal :=
  .next (s.skipIf (s.getV x != s.getV y))

end Sys2Proof.Machine
end

