-- ==== Sys2Proof/Machine/Display.lean ====
section
/-! DEFINITION. The display instructions of 44_display.md. -/

namespace Sys2Proof.Machine

/-- One sprite pixel `p` at column `vx + bit`, row `vy + row`: skipped off the screen (44_display.md R212), else XORed
into its cell, VF set to 1 if it erases one (R213). -/
def drawPixel (vx vy row bit : Nat) (p : Bool) (s : State) : State :=
  if h : vy + row < 32 ∧ vx + bit < 64 then
    let old := s.cell ⟨vy + row, h.1⟩ ⟨vx + bit, h.2⟩
    let t := if p && old then s.setV regVF 1 else s
    t.setCell ⟨vy + row, h.1⟩ ⟨vx + bit, h.2⟩ (old ^^ p)
  else s

/-- The pixels `bit`, `bit + 1`, ... of a row, `k` of them: bit 7 of the byte is the leftmost pixel (44_display.md
R214). -/
def drawBits (vx vy row : Nat) (b : Byte) (bit : Nat) : Nat → State → State
  | 0, s => s
  | k + 1, s => drawBits vx vy row b (bit + 1) k (drawPixel vx vy row bit (b.getLsbD (7 - bit)) s)

/-- The rows `row`, `row + 1`, ... of a sprite, top row first, eight pixels each (44_display.md R211, R214). -/
def drawRows (vx vy : Nat) (row : Nat) : List Byte → State → State
  | [], s => s
  | b :: bs, s => drawRows vx vy (row + 1) bs (drawBits vx vy row b 0 8 s)

/-- `00E0` CLS (44_display.md R210). -/
def execCls (s : State) : Host.Outcome State Fault Refusal :=
  .next s.clearDisplay

/-- `DXYN` DRW Vx, Vy, nibble: all sprite bytes are read, then VF is cleared and the sprite drawn from the captured
origin, then `dirty` is set (44_display.md R211, R213, R215, R216). -/
def execDrwVxVyN (x y : Reg) (n : Nat) (s : State) : Host.Outcome State Fault Refusal :=
  match s.readBytes (s.effectiveAddress 0) n with
  | .error f => .next (s.raise f)
  | .ok sprite =>
    .next { drawRows (s.getV x).toNat (s.getV y).toNat 0 sprite (s.setV regVF 0) with dirty := true }

end Sys2Proof.Machine
end

