-- ==== Sys2Proof/Machine/IndexMemory.lean ====
section
/-! DEFINITION. The index register and memory instructions of 43_index_memory.md. None of the transfers changes I
(R193). -/

namespace Sys2Proof.Machine

/-- `ANNN` LD I, addr (43_index_memory.md R190). -/
def execLdIAddr (a : BitVec 12) (s : State) : Host.Outcome State Fault Refusal :=
  .next (s.setI (zextAddr a))

/-- `FX1E` ADD I, Vx (43_index_memory.md R191). -/
def execAddIVx (x : Reg) (s : State) : Host.Outcome State Fault Refusal :=
  .next (s.setI (s.i + zextByte (s.getV x)))

/-- `FX29` LD F, Vx (43_index_memory.md R192). -/
def execLdFVx (x : Reg) (s : State) : Host.Outcome State Fault Refusal :=
  .next (s.setI (glyphAddress (s.getV x)))

/-- `FX33` LD B, Vx: three digits at I, I+1, I+2 (43_index_memory.md R194). -/
def execLdBVx (x : Reg) (s : State) : Host.Outcome State Fault Refusal :=
  .next (s.storeBytes (s.effectiveAddress 0) (bcdDigits (s.getV x)))

/-- `FX55` LD [I], Vx: V0 through Vx at I upward (43_index_memory.md R195). -/
def execLdMemVx (x : Reg) (s : State) : Host.Outcome State Fault Refusal :=
  .next (s.storeBytes (s.effectiveAddress 0) ((regsThrough x).map s.getV))

/-- `FX65` LD Vx, [I]: V0 through Vx from I upward (43_index_memory.md R196). -/
def execLdVxMem (x : Reg) (s : State) : Host.Outcome State Fault Refusal :=
  .next (s.loadRegs (s.effectiveAddress 0) (regsThrough x))

end Sys2Proof.Machine
end

