-- ==== Sys2Proof/Machine/KeysTimers.lean ====
section
/-! DEFINITION. The key and timer instructions of 45_keys_timers.md. -/

namespace Sys2Proof.Machine

/-- `EX9E` SKP Vx: the whole byte is the key number (45_keys_timers.md R230). -/
def execSkpVx (x : Reg) (s : State) : Host.Outcome State Fault Refusal :=
  .next (s.skipIf (keyPressed s.keys (s.getV x).toNat))

/-- `EXA1` SKNP Vx (45_keys_timers.md R231). -/
def execSknpVx (x : Reg) (s : State) : Host.Outcome State Fault Refusal :=
  .next (s.skipIf (!keyPressed s.keys (s.getV x).toNat))

/-- `FX0A` LD Vx, K: with no key pressed PC goes back by 2, so the instruction runs again at the next step
(45_keys_timers.md R232). -/
def execLdVxK (x : Reg) (s : State) : Host.Outcome State Fault Refusal :=
  match lowestKey s.keys with
  | none => .next (s.setPc (s.pc - 2))
  | some k => .next (s.setV x (BitVec.ofNat 8 k))

/-- `FX07` LD Vx, DT (45_keys_timers.md R233). -/
def execLdVxDt (x : Reg) (s : State) : Host.Outcome State Fault Refusal :=
  .next (s.setV x s.dt)

/-- `FX15` LD DT, Vx (45_keys_timers.md R234). -/
def execLdDtVx (x : Reg) (s : State) : Host.Outcome State Fault Refusal :=
  .next { s with dt := s.getV x }

/-- `FX18` LD ST, Vx (45_keys_timers.md R235). -/
def execLdStVx (x : Reg) (s : State) : Host.Outcome State Fault Refusal :=
  .next { s with st := s.getV x }

end Sys2Proof.Machine
end

