-- ==== Sys2Proof/Machine/Flags.lean ====
section
/-! DEFINITION. What the flag-writing instructions put in VF, and the order of the two writes (42_load_alu.md R172,
R173). -/

namespace Sys2Proof.Machine

/-- A flag as the byte VF gets. -/
def flagByte (f : Bool) : Byte := if f then 1 else 0

/-- `8XY4`: the exact sum is above 255 (42_load_alu.md R166). -/
def carryOut (a b : Byte) : Bool := decide (a.toNat + b.toNat > 255)

/-- `8XY5` and `8XY7`: the minuend `a` is at least the subtrahend `b` (42_load_alu.md R167, R169). -/
def notBorrow (a b : Byte) : Bool := decide (a.toNat ≥ b.toNat)

/-- `8XY6`: the bit shifted out at the right (42_load_alu.md R168). -/
def shiftedOutRight (a : Byte) : Bool := a.getLsbD 0

/-- `8XYE`: the bit shifted out at the left (42_load_alu.md R170). -/
def shiftedOutLeft (a : Byte) : Bool := a.getLsbD 7

/-- Flag first, result second: with `x = 0xF` the result survives (42_load_alu.md R173). -/
def State.setFlagThenResult (s : State) (x : Reg) (f : Bool) (b : Byte) : State :=
  (s.setV regVF (flagByte f)).setV x b

end Sys2Proof.Machine
end

