-- ==== Sys2Proof/Machine/LoadAlu.lean ====
section
/-! DEFINITION. The load, arithmetic, logic, shift and random instructions of 42_load_alu.md. -/

namespace Sys2Proof.Machine

/-- `6XNN` LD Vx, byte (42_load_alu.md R160). -/
def execLdVxByte (x : Reg) (b : Byte) (s : State) : Host.Outcome State Fault Refusal :=
  .next (s.setV x b)

/-- `7XNN` ADD Vx, byte, with no carry recorded (42_load_alu.md R161). -/
def execAddVxByte (x : Reg) (b : Byte) (s : State) : Host.Outcome State Fault Refusal :=
  .next (s.setV x (s.getV x + b))

/-- `8XY0` LD Vx, Vy (42_load_alu.md R162). -/
def execLdVxVy (x y : Reg) (s : State) : Host.Outcome State Fault Refusal :=
  .next (s.setV x (s.getV y))

/-- `8XY1` OR Vx, Vy (42_load_alu.md R163). -/
def execOrVxVy (x y : Reg) (s : State) : Host.Outcome State Fault Refusal :=
  .next (s.setV x (s.getV x ||| s.getV y))

/-- `8XY2` AND Vx, Vy (42_load_alu.md R164). -/
def execAndVxVy (x y : Reg) (s : State) : Host.Outcome State Fault Refusal :=
  .next (s.setV x (s.getV x &&& s.getV y))

/-- `8XY3` XOR Vx, Vy (42_load_alu.md R165). -/
def execXorVxVy (x y : Reg) (s : State) : Host.Outcome State Fault Refusal :=
  .next (s.setV x (s.getV x ^^^ s.getV y))

/-- `8XY4` ADD Vx, Vy (42_load_alu.md R166). -/
def execAddVxVy (x y : Reg) (s : State) : Host.Outcome State Fault Refusal :=
  .next (s.setFlagThenResult x (carryOut (s.getV x) (s.getV y)) (s.getV x + s.getV y))

/-- `8XY5` SUB Vx, Vy (42_load_alu.md R167). -/
def execSubVxVy (x y : Reg) (s : State) : Host.Outcome State Fault Refusal :=
  .next (s.setFlagThenResult x (notBorrow (s.getV x) (s.getV y)) (s.getV x - s.getV y))

/-- `8XY6` SHR Vx: `y` is ignored (42_load_alu.md R168). -/
def execShrVx (x _y : Reg) (s : State) : Host.Outcome State Fault Refusal :=
  .next (s.setFlagThenResult x (shiftedOutRight (s.getV x)) (s.getV x >>> 1))

/-- `8XY7` SUBN Vx, Vy (42_load_alu.md R169). -/
def execSubnVxVy (x y : Reg) (s : State) : Host.Outcome State Fault Refusal :=
  .next (s.setFlagThenResult x (notBorrow (s.getV y) (s.getV x)) (s.getV y - s.getV x))

/-- `8XYE` SHL Vx: `y` is ignored (42_load_alu.md R170). -/
def execShlVx (x _y : Reg) (s : State) : Host.Outcome State Fault Refusal :=
  .next (s.setFlagThenResult x (shiftedOutLeft (s.getV x)) (s.getV x <<< 1))

/-- `CXNN` RND Vx, byte: a free byte under the mask, and the draw is used up (42_load_alu.md R171, log 2). -/
def execRndVxByte (x : Reg) (b : Byte) (s : State) : Host.Outcome State Fault Refusal :=
  .next { s.setV x (s.randomByte &&& b) with draws := s.draws + 1 }

end Sys2Proof.Machine
end

