-- ==== Sys2Proof/Machine/Step.lean ====
section
/-! DEFINITION. The step of 40_step_cycle.md R130, put together from the phases of Machine/Cycle.lean and the dispatch. -/

namespace Sys2Proof.Machine

/-- One `step` command (40_step_cycle.md R120, R130). It always answers a next state: a fault is one (log 3). -/
def step (s : State) : Host.Outcome State Fault Refusal :=
  match s.prepare with
  | .ended t => .next t
  | .ready i t => complete (exec i t)

/-- The state with the instruction of an opcode-table word placed where the next step fetches (log 5). -/
def State.withFetchWord (s : State) (nbits w : Nat) : State := s.placeAtPc (tableBytes nbits w)

end Sys2Proof.Machine
end

