-- ==== Sys2Proof/Machine/HostCommands.lean ====
section
/-! DEFINITION. The commands a host gives the core between steps, and what it observes (46_host_commands.md). -/

namespace Sys2Proof.Machine

/-- `press(k)`: nothing for a `k` outside 0..15 (46_host_commands.md R254). -/
def State.press (s : State) (k : Nat) : State :=
  if k < 16 then { s with keys := s.keys ||| keyMask k } else s

/-- `release(k)`: nothing for a `k` outside 0..15 (46_host_commands.md R255). -/
def State.release (s : State) (k : Nat) : State :=
  if k < 16 then { s with keys := s.keys &&& ~~~(keyMask k) } else s

/-- `ack_dirty` (46_host_commands.md R257). -/
def State.ackDirty (s : State) : State := { s with dirty := false }

/-- The result of `load`; a rejection is the source's InvalidProgramImage (60_exceptions.md R276). -/
inductive LoadResult where
  /-- the image is in memory -/
  | accepted
  /-- no byte was written -/
  | rejected
  deriving DecidableEq, Repr

/-- The code of 60_exceptions.md R270 for a load: 5 is InvalidProgramImage, never latched. -/
def LoadResult.code : LoadResult → BitVec 3
  | .accepted => 0
  | .rejected => 5

/-- The range check of `load` (46_host_commands.md R256). -/
def State.loadFits (s : State) (len offset : Nat) : Bool :=
  decide (Config.loadFloor ≤ offset ∧ offset + len ≤ s.cfg.memSize)

/-- `load(bytes, offset)`: all or nothing, memory only (46_host_commands.md R256). -/
def State.load (s : State) (bytes : List Byte) (offset : Nat := Config.programStart.toNat) : LoadResult × State :=
  if s.loadFits bytes.length offset then
    (.accepted, { s with mem := Memory.writeAll s.cfg s.mem offset bytes })
  else (.rejected, s)

/-- The result of `step` (46_host_commands.md R252). -/
inductive StepResult where
  /-- the step completed with its timer tick -/
  | ok
  /-- the code and the information in the latch -/
  | fault (code : BitVec 3) (info : BitVec 17)
  deriving DecidableEq, Repr

/-- The result of the step that left this state: a latched fault is the one this step raised, or the one an earlier
step raised (46_host_commands.md R252). -/
def State.stepResult (t : State) : StepResult := if t.faulted then .fault t.faultCode t.faultInfo else .ok

/-- What `observe` returns (46_host_commands.md R258). -/
structure Snapshot where
  v : Vector Byte 16
  i : Word
  sp : Word
  pc : Word
  dt : Byte
  st : Byte
  ir : Word
  disp : Display
  dirty : Bool
  keys : BitVec 16
  /-- the call stack, the oldest entry first -/
  stack : List Word
  depth : Nat
  toneStop : Bool
  faulted : Bool
  faultCode : BitVec 3
  faultInfo : BitVec 17
  deriving DecidableEq, Repr

/-- `observe`: a snapshot, nothing changed (46_host_commands.md R258). -/
def State.observe (s : State) : Snapshot where
  v := s.v
  i := s.i
  sp := s.sp
  pc := s.pc
  dt := s.dt
  st := s.st
  ir := s.ir
  disp := s.disp
  dirty := s.dirty
  keys := s.keys
  stack := s.stack.reverse
  depth := s.stack.length
  toneStop := s.toneStop
  faulted := s.faulted
  faultCode := s.faultCode
  faultInfo := s.faultInfo

/-- The snapshot's display as a flat sequence, row by row, cell index `64*r + c` (10_state.md R36, decision D23). -/
def Snapshot.flatDisplay (o : Snapshot) : List Bool := (o.disp.toList.map Vector.toList).flatten

/-- The commands of 46_host_commands.md R250. -/
inductive Command where
  | step
  | reset
  | press (k : Nat)
  | release (k : Nat)
  | load (bytes : List Byte) (offset : Nat)
  | ackDirty
  | observe
  deriving DecidableEq, Repr

/-- What a command returns (46_host_commands.md R250). -/
inductive Reply where
  | none
  | stepped (r : StepResult)
  | loaded (r : LoadResult)
  | observed (o : Snapshot)
  deriving DecidableEq, Repr

/-- One command, an atomic transaction (46_host_commands.md R250, R251). -/
def command (c : Command) (s : State) : Host.Outcome (State × Reply) Fault Refusal :=
  match c with
  | .step =>
    match Sys2Proof.Machine.step s with
    | .next t => .next (t, .stepped t.stepResult)
    | .fault f => .fault f
    | .refused r => .refused r
  | .reset => .next (s.softReset, .none)
  | .press k => .next (s.press k, .none)
  | .release k => .next (s.release k, .none)
  | .load bytes offset => .next ((s.load bytes offset).2, .loaded (s.load bytes offset).1)
  | .ackDirty => .next (s.ackDirty, .none)
  | .observe => .next (s, .observed s.observe)

/-- A run of the core: commands applied in order, each seeing all the effects of those before it
(46_host_commands.md R251). -/
def runCommands : List Command → State → Host.Outcome State Fault Refusal
  | [], s => .next s
  | c :: cs, s =>
    match command c s with
    | .next (t, _) => runCommands cs t
    | .fault f => .fault f
    | .refused r => .refused r

end Sys2Proof.Machine
end

