-- ==== Sys2Proof/Safety.lean ====
section
/-! DEFINITION. What the claims say of a state: the invariant of every state a core can be in, a run without a fault,
and the end of a run. -/

namespace Sys2Proof.Machine

/-- What the fault latch may hold (60_exceptions.md R270, R275): nothing, or the code, the information and the cause of
one fault. -/
def State.LatchConsistent (s : State) : Prop :=
  (s.faulted = false ∧ s.faultCode = 0 ∧ s.faultInfo = 0) ∨
  (s.faulted = true ∧ s.toneStop = false ∧
    ((s.faultCode = 1 ∧ s.cfg.memSize ≤ s.faultInfo.toNat ∧ s.faultInfo.toNat ≤ 0x1000E) ∨
     (s.faultCode = 2 ∧ s.faultInfo = s.ir.setWidth 17 ∧ decode s.ir = .error (.unknownOpcode s.ir)) ∨
     (s.faultCode = 3 ∧ s.faultInfo = 0 ∧ s.ir = 0x00EE ∧ s.stack = []) ∨
     (s.faultCode = 4 ∧ s.faultInfo = 0 ∧ fieldGroup s.ir = 0x2 ∧ s.stack.length = s.cfg.stackLimit)))

/-- The invariant: the parameters are in range (20_memory.md R60), memory is in canonical form and inside MEM_SIZE, SP
is 0 (10_state.md R24), the stack is within its bound (R30), the latch is consistent, and tone_stop is 1 only with ST
run out (R33). -/
structure State.Inv (s : State) : Prop where
  cfg : s.cfg.WellFormed
  mem : Memory.wf s.cfg s.mem
  sp : s.sp = 0
  stack : s.stack.length ≤ s.cfg.stackLimit
  latch : s.LatchConsistent
  tone : s.toneStop = true → s.st = 0

/-- No fault recorded, the premise of every claim about a run (93_implementation_defined.md A10). -/
abbrev State.NoFault (s : State) : Prop := s.faulted = false

/-- The next step fetches the word `w`: the core is not halted, both addresses exist, and the bytes there make `w`, the
one at the lower address first (40_step_cycle.md R121, 20_memory.md R65). -/
def State.FetchesWord (s : State) (w : Word) : Prop :=
  s.faulted = false ∧ s.pc.toNat + 1 < s.cfg.memSize ∧ wordOfBytes (s.byteAt s.pc.toNat) (s.byteAt (s.pc.toNat + 1)) = w

/-- From `s` to `t` nothing changed but the V registers of `ws`. -/
structure OnlyRegisters (ws : List Reg) (s t : State) : Prop where
  /-- every other V register reads as before -/
  regs : ∀ r, r ∉ ws → t.getV r = s.getV r
  /-- every byte of memory reads as before -/
  memory : ∀ k, t.byteAt k = s.byteAt k
  /-- every field but the register file is the same -/
  rest : t = { s with v := t.v }

/-- The V registers an instruction may write: its destination, and VF for the instructions of 10_state.md R22. -/
def registersWritten : Instr → List Reg
  | .cls => []
  | .ret => []
  | .jpAddr _ => []
  | .callAddr _ => []
  | .seVxByte _ _ => []
  | .sneVxByte _ _ => []
  | .seVxVy _ _ => []
  | .ldVxByte x _ => [x]
  | .addVxByte x _ => [x]
  | .ldVxVy x _ => [x]
  | .orVxVy x _ => [x]
  | .andVxVy x _ => [x]
  | .xorVxVy x _ => [x]
  | .addVxVy x _ => [x, regVF]
  | .subVxVy x _ => [x, regVF]
  | .shrVx x _ => [x, regVF]
  | .subnVxVy x _ => [x, regVF]
  | .shlVx x _ => [x, regVF]
  | .sneVxVy _ _ => []
  | .ldIAddr _ => []
  | .jpV0Addr _ => []
  | .rndVxByte x _ => [x]
  | .drwVxVyN _ _ _ => [regVF]
  | .skpVx _ => []
  | .sknpVx _ => []
  | .ldVxDt x => [x]
  | .ldVxK x => [x]
  | .ldDtVx _ => []
  | .ldStVx _ => []
  | .addIVx _ => []
  | .ldFVx _ => []
  | .ldBVx _ => []
  | .ldMemVx _ => []
  | .ldVxMem x => regsThrough x

/-- The state with everything that no instruction reads put to a fixed value: IR, SP, ST, tone_stop, dirty (10_state.md
R29, R24, R32, R33, R37). -/
def State.hideUnread (s : State) : State := { s with ir := 0, sp := 0, st := 0, toneStop := false, dirty := false }

/-- The end of a run as 46_host_commands.md R260 suggests it (decision D27): the next instruction is a jump to itself
and both timers are 0. -/
def State.EndOfRun (s : State) : Prop :=
  s.faulted = false ∧ s.dt = 0 ∧ s.st = 0 ∧
    ∃ a : BitVec 12, s.fetch = .ok (encode (.jpAddr a)) ∧ s.pc = zextAddr a

/-- The pixel that an `n`-row sprite with row bytes `sprite 0`, `sprite 1`, ... drawn from column `vx`, row `vy` puts on
the cell (r, c): column `vx + k` of row `vy + j` is bit `7 - k` of byte `j`, nothing wraps (44_display.md R211, R212,
R214). -/
def spritePixel (vx vy n : Nat) (sprite : Nat → Byte) (r : Fin 32) (c : Fin 64) : Bool :=
  decide (vy ≤ r.val ∧ r.val < vy + n ∧ vx ≤ c.val ∧ c.val < vx + 8) &&
    (sprite (r.val - vy)).getLsbD (7 - (c.val - vx))

end Sys2Proof.Machine
end

