-- ==== Sys2Proof/Certificates/Slice0/Obligations.lean ====
section
/-! DEFINITION. The statements for the provers. `log n` is notes/assumptions/n.md; `D n` is a decision of
spec/92_eei_decisions.md, a choice of the spec's own and not of its source. -/

open Sys2Proof Sys2Proof.Machine

/-! ## Encoding -/

/-- Words of the spec's decode vectors (95_test_vectors.md 2.1), one at least for each format. -/
def Obligations.DecodeReadsTheSpecsWords : Prop :=
  decode 0x00E0 = .ok .cls ∧ decode 0x00EE = .ok .ret ∧ decode 0x1ABC = .ok (.jpAddr 0xABC) ∧
  decode 0x3A42 = .ok (.seVxByte 0xA 0x42) ∧ decode 0x812E = .ok (.shlVx 1 2) ∧ decode 0x9120 = .ok (.sneVxVy 1 2) ∧
  decode 0xA123 = .ok (.ldIAddr 0x123) ∧ decode 0xC30F = .ok (.rndVxByte 3 0x0F) ∧
  decode 0xD125 = .ok (.drwVxVyN 1 2 5) ∧ decode 0xE1A1 = .ok (.sknpVx 1) ∧ decode 0xF255 = .ok (.ldMemVx 2) ∧
  decode 0x01E0 = .error (.unknownOpcode 0x01E0) ∧ decode 0x812D = .error (.unknownOpcode 0x812D)

/-- Decoding the word of any well-formed instruction gives it back, with every operand (30_encoding.md R91 to R94). -/
def Obligations.DecodeOfEncodeIsTheInstruction : Prop :=
  ∀ i : Instr, i.wellFormed = true → decode (encode i) = .ok i

/-- A legal word is the word of the one instruction it decodes to, which is well formed (30_encoding.md R94, R97). -/
def Obligations.EncodeOfDecodeIsTheWord : Prop :=
  ∀ (w : Word) (i : Instr), decode w = .ok i → encode i = w ∧ i.wellFormed = true

/-- "A word `w` is this instruction exactly when `w & mask = match`", for each of the 34 rows, and no word matches two
of them (30_encoding.md R94; the sub-dispatch keys are D7). -/
def Obligations.WordIsAnInstructionExactlyWhenItMatchesItsRow : Prop :=
  opcodeMap.length = 34 ∧
  ∀ (w : Word), ∀ k ∈ opcodeMap,
    ((opcodeRow k).Matches w ↔ ∃ i, decode w = .ok i ∧ opcodeRow i = opcodeRow k) ∧
    ∀ l ∈ opcodeMap, (opcodeRow k).Matches w → (opcodeRow l).Matches w → k = l

/-- The illegal words are exactly those 30_encoding.md R95 lists, and each is rejected with its value (D7). -/
def Obligations.IllegalWordsAreExactlyTheListedOnes : Prop :=
  ∀ w : Word, decode w = .error (.unknownOpcode w) ↔
    (fieldGroup w = 0x0 ∧ w ≠ 0x00E0 ∧ w ≠ 0x00EE) ∨
    (fieldGroup w = 0x5 ∧ fieldN w ≠ 0) ∨
    (fieldGroup w = 0x8 ∧ fieldN w ∈ [0x8#4, 0x9#4, 0xA#4, 0xB#4, 0xC#4, 0xD#4, 0xF#4]) ∨
    (fieldGroup w = 0x9 ∧ fieldN w ≠ 0) ∨
    (fieldGroup w = 0xE ∧ fieldByte w ∉ [0x9E#8, 0xA1#8]) ∨
    (fieldGroup w = 0xF ∧
      fieldByte w ∉ [0x07#8, 0x0A#8, 0x15#8, 0x18#8, 0x1E#8, 0x29#8, 0x33#8, 0x55#8, 0x65#8])

/-! ## Memory -/

/-- A byte written is read back, no other byte changes, nothing else changes (20_memory.md R61). That memory is in
canonical form before, and stays so, is the model's representation (log 4, DESIGN CHOICE). -/
def Obligations.ReadAfterWriteGivesTheByteWritten : Prop :=
  ∀ (s : State) (a : Nat) (b : Byte), Memory.wf s.cfg s.mem → a < s.cfg.memSize →
    ∃ t, s.memWrite a b = .ok t ∧ t.memRead a = .ok b ∧ (∀ k, k ≠ a → t.memRead k = s.memRead k) ∧
      t = { s with mem := t.mem } ∧ Memory.wf t.cfg t.mem

/-- 20_memory.md R62: an access is valid exactly below MEM_SIZE, and any other raises with its address. -/
def Obligations.AccessIsValidExactlyBelowMemSize : Prop :=
  ∀ (s : State) (a : Nat) (b : Byte),
    (a < s.cfg.memSize → (∃ v, s.memRead a = .ok v) ∧ ∃ t, s.memWrite a b = .ok t) ∧
    (s.cfg.memSize ≤ a → s.memRead a = .error (.addressOutOfRange a) ∧ s.memWrite a b = .error (.addressOutOfRange a))

/-- Equal memories are equal data: two memories in canonical form that read alike at every address are one list (the
model's representation, log 4). -/
def Obligations.CanonicalMemoriesThatReadAlikeAreEqual : Prop :=
  ∀ (c : Config) (m m' : Memory), Memory.wf c m → Memory.wf c m' →
    (∀ a, Memory.read c m a = Memory.read c m' a) → m = m'

/-! ## The step -/

/-- When the bytes at PC make a legal word, the step is `exec` of its instruction, on the state with IR loaded, PC
advanced by 2 and tone_stop cleared, and then the timer tick unless a fault was raised (40_step_cycle.md R121 to R128;
the byte order is D2, the tick left out after a fault is D17). -/
def Obligations.StepExecutesTheDecodedInstruction : Prop :=
  ∀ (s : State) (w : Word) (i : Instr), s.FetchesWord w → decode w = .ok i →
    step s =
      match exec i { s with toneStop := false, ir := w, pc := s.pc + 2 } with
      | .next t => .next (if t.faulted then t else t.tick)
      | .fault f => .fault f
      | .refused r => .refused r

/-- Every step ends, and in a next state; the command's result is `ok` or the code and information in the latch
(40_step_cycle.md R120, 46_host_commands.md R252, R260). That a fault is a next state is log 3. -/
def Obligations.EveryStepEndsInANextState : Prop :=
  ∀ s : State, ∃ t, step s = .next t ∧
    command .step s =
      .next (t, .stepped (if t.faulted = true then .fault t.faultCode t.faultInfo else .ok))

/-- A fetch that meets the end of memory raises AddressOutOfRange with the first address that does not exist; PC and IR
keep their values (40_step_cycle.md R121; tone_stop is D17). -/
def Obligations.FetchBeyondMemoryRaisesAndKeepsPcAndIr : Prop :=
  ∀ s : State, s.faulted = false →
    (s.cfg.memSize ≤ s.pc.toNat →
      step s = .next { s with toneStop := false, faulted := true, faultCode := 1,
                              faultInfo := BitVec.ofNat 17 s.pc.toNat }) ∧
    (s.pc.toNat + 1 = s.cfg.memSize →
      step s = .next { s with toneStop := false, faulted := true, faultCode := 1,
                              faultInfo := BitVec.ofNat 17 s.cfg.memSize })

/-- An illegal word raises UnknownOpcode with the word; PC is already advanced, IR holds the word, nothing else runs
(40_step_cycle.md R123, 60_exceptions.md R272; the latch and tone_stop are D17, the code D18, IR D26). -/
def Obligations.IllegalWordRaisesUnknownOpcode : Prop :=
  ∀ (s : State) (w : Word), s.FetchesWord w → decode w = .error (.unknownOpcode w) →
    step s = .next { s with toneStop := false, ir := w, pc := s.pc + 2, faulted := true, faultCode := 2,
                            faultInfo := w.setWidth 17 }

/-- 40_step_cycle.md R127: after an instruction that raised no fault, whatever it is, each timer that is not 0 goes down
by one and tone_stop is 1 exactly when ST went from 1 to 0. -/
def Obligations.TimerTickFollowsEveryInstruction : Prop :=
  ∀ (s t : State) (w : Word) (i : Instr), s.FetchesWord w → decode w = .ok i →
    exec i { s with toneStop := false, ir := w, pc := s.pc + 2 } = .next t → t.faulted = false →
    ∃ u, step s = .next u ∧
      (t.dt = 0 → u.dt = 0) ∧ (t.dt ≠ 0 → u.dt.toNat = t.dt.toNat - 1) ∧
      (t.st = 0 → u.st = 0) ∧ (t.st ≠ 0 → u.st.toNat = t.st.toNat - 1) ∧
      (u.toneStop = true ↔ t.st.toNat = 1) ∧
      u = { t with dt := u.dt, st := u.st, toneStop := u.toneStop }

/-- A step of a halted core changes nothing and answers the latched fault again (40_step_cycle.md R129,
46_host_commands.md R252, D17). -/
def Obligations.HaltedStepChangesNothing : Prop :=
  ∀ s : State, s.faulted = true →
    step s = .next s ∧ command .step s = .next (s, .stepped (.fault s.faultCode s.faultInfo))

/-! ## Faults -/

/-- Raising sets the latch to the code and the information of 60_exceptions.md R270, and nothing else (R275; D17, D18).
The 17 bits hold every address the core can form. -/
def Obligations.RaisingRecordsCodeAndInformation : Prop :=
  ∀ (s : State) (a : Nat) (w : Word), a ≤ 0x1000E →
    (∃ t, s.raise (.addressOutOfRange a) = t ∧ t.faultInfo.toNat = a ∧
      t = { s with faulted := true, faultCode := 1, faultInfo := t.faultInfo }) ∧
    (∃ t, s.raise (.unknownOpcode w) = t ∧ t.faultInfo.toNat = w.toNat ∧
      t = { s with faulted := true, faultCode := 2, faultInfo := t.faultInfo }) ∧
    s.raise .stackUnderflow = { s with faulted := true, faultCode := 3, faultInfo := 0 } ∧
    s.raise .stackOverflow = { s with faulted := true, faultCode := 4, faultInfo := 0 }

/-- A step that raises a fault leaves both timers, I, SP, the stack, the display, `dirty` and `keys` as they were, and
tone_stop 0; only `FX33`, `FX55` (memory) and `FX65` (registers) leave part of their work behind (60_exceptions.md R275,
R278, 40_step_cycle.md R128; D17). -/
def Obligations.FaultsArePreciseButForBlockTransfers : Prop :=
  ∀ s t : State, s.faulted = false → step s = .next t → t.faulted = true →
    t.dt = s.dt ∧ t.st = s.st ∧ t.toneStop = false ∧ t.i = s.i ∧ t.sp = s.sp ∧ t.stack = s.stack ∧
    t.disp = s.disp ∧ t.dirty = s.dirty ∧ t.keys = s.keys ∧ t.draws = s.draws ∧ t.cfg = s.cfg ∧
    ((∀ x, decode t.ir ≠ .ok (.ldBVx x)) → (∀ x, decode t.ir ≠ .ok (.ldMemVx x)) → t.mem = s.mem) ∧
    ((∀ x, decode t.ir ≠ .ok (.ldVxMem x)) → t.v = s.v)

/-- A latched fault stays, and PC with it, under every command but `reset`, which clears it (60_exceptions.md R282,
46_host_commands.md R253; D17). -/
def Obligations.OnlyResetClearsALatchedFault : Prop :=
  ∀ (s : State), s.faulted = true →
    (∀ (c : Command) (t : State) (r : Reply), c ≠ .reset → command c s = .next (t, r) →
      t.faulted = true ∧ t.faultCode = s.faultCode ∧ t.faultInfo = s.faultInfo ∧ t.pc = s.pc) ∧
    ∃ t, command .reset s = .next (t, .none) ∧ t.faulted = false ∧ t.faultCode = 0 ∧ t.faultInfo = 0 ∧ t.pc = 0x200

/-! ## Control flow -/

/-- 41_control_flow.md R141: the jump loads the 12-bit target and changes nothing else. -/
def Obligations.JpLoadsItsTarget : Prop :=
  ∀ (a : BitVec 12) (s : State), decode (formatAddr 0x1 a) = .ok (.jpAddr a) ∧
    exec (.jpAddr a) s = .next { s with pc := a.setWidth 16 }

/-- The jump with offset loads the exact sum of the target and V0, not cut to 12 bits (41_control_flow.md R143; the
meaning is general knowledge, the carry kept is D11). -/
def Obligations.JpV0LoadsTheExactSum : Prop :=
  ∀ (a : BitVec 12) (s : State), ∃ t, exec (.jpV0Addr a) s = .next t ∧
    t.pc.toNat = a.toNat + (s.getV 0).toNat ∧ t = { s with pc := t.pc }

/-- A call with room on the stack pushes the advanced PC and loads the target; a return pops the entry pushed last into
PC; nothing else changes, SP included (41_control_flow.md R140, R142; the pattern of `00EE` is general knowledge, the
bound is D5). -/
def Obligations.CallAndRetMoveTheReturnAddress : Prop :=
  (∀ (a : BitVec 12) (s : State), s.stack.length < s.cfg.stackLimit →
    exec (.callAddr a) s = .next { s with stack := s.pc :: s.stack, pc := a.setWidth 16 }) ∧
  ∀ (s : State) (a : Word) (rest : List Word), s.stack = a :: rest →
    exec .ret s = .next { s with stack := rest, pc := a }

/-- A return on an empty stack raises StackUnderflow, a call on a full one raises StackOverflow (60_exceptions.md R273,
R274; the bound is D5). That the next state differs in the latch alone, the stack and PC as they were, is R275 with D17
(log 11), and that raising is a next state is log 3. -/
def Obligations.StackFaultsAreRaised : Prop :=
  (∀ s : State, s.stack = [] → exec .ret s = .next (s.raise .stackUnderflow)) ∧
  ∀ (a : BitVec 12) (s : State), s.stack.length = s.cfg.stackLimit →
    exec (.callAddr a) s = .next (s.raise .stackOverflow)

/-- The four skips on register values move PC by 2 more exactly when their condition holds, and change nothing else
(41_control_flow.md R144 to R147, R150; general knowledge). -/
def Obligations.SkipsOnRegisterValuesMovePcByTwo : Prop :=
  ∀ (x y : Reg) (b : Byte) (s : State),
    exec (.seVxByte x b) s = .next { s with pc := if s.getV x = b then s.pc + 2 else s.pc } ∧
    exec (.sneVxByte x b) s = .next { s with pc := if s.getV x = b then s.pc else s.pc + 2 } ∧
    exec (.seVxVy x y) s = .next { s with pc := if s.getV x = s.getV y then s.pc + 2 else s.pc } ∧
    exec (.sneVxVy x y) s = .next { s with pc := if s.getV x = s.getV y then s.pc else s.pc + 2 }

/-- PC after an instruction that is no jump, call or return: unmoved, two further for a skip, two back for a key wait
(10_state.md R27). -/
def Obligations.PcMovesOnlyAsTheInstructionSays : Prop :=
  ∀ (i : Instr) (s t : State), exec i s = .next t →
    i ≠ .ret → (∀ a, i ≠ .jpAddr a) → (∀ a, i ≠ .callAddr a) → (∀ a, i ≠ .jpV0Addr a) →
    t.pc = s.pc ∨
    (t.pc = s.pc + 2 ∧ ((∃ x b, i = .seVxByte x b ∨ i = .sneVxByte x b) ∨ (∃ x y, i = .seVxVy x y ∨ i = .sneVxVy x y) ∨
      ∃ x, i = .skpVx x ∨ i = .sknpVx x)) ∨
    (t.pc = s.pc - 2 ∧ s.keys = 0 ∧ ∃ x, i = .ldVxK x)

/-! ## Load, arithmetic, logic, shift, random -/

/-- 42_load_alu.md R160: the constant is loaded and nothing else changes. -/
def Obligations.LdVxByteLoadsTheConstant : Prop :=
  ∀ (x : Reg) (b : Byte) (s : State), decode (formatXByte 0x6 x b) = .ok (.ldVxByte x b) ∧
    ∃ t, exec (.ldVxByte x b) s = .next t ∧ t.getV x = b ∧ OnlyRegisters [x] s t

/-- Add constant, copy, or, and, xor: the result of the captured operands in Vx, VF untouched unless it is Vx, nothing
else changed (42_load_alu.md R161 to R165; general knowledge and D10). -/
def Obligations.MovesAndLogicWriteOnlyVx : Prop :=
  ∀ (x y : Reg) (b : Byte) (s : State),
    (∃ t, exec (.addVxByte x b) s = .next t ∧ (t.getV x).toNat = ((s.getV x).toNat + b.toNat) % 256 ∧
      OnlyRegisters [x] s t) ∧
    (∃ t, exec (.ldVxVy x y) s = .next t ∧ t.getV x = s.getV y ∧ OnlyRegisters [x] s t) ∧
    (∃ t, exec (.orVxVy x y) s = .next t ∧ t.getV x = s.getV x ||| s.getV y ∧ OnlyRegisters [x] s t) ∧
    (∃ t, exec (.andVxVy x y) s = .next t ∧ t.getV x = s.getV x &&& s.getV y ∧ OnlyRegisters [x] s t) ∧
    (∃ t, exec (.xorVxVy x y) s = .next t ∧ t.getV x = s.getV x ^^^ s.getV y ∧ OnlyRegisters [x] s t)

/-- Add: the sum modulo 256 in Vx; VF is the carry, unless it is Vx and holds the sum (42_load_alu.md R166, R173; the
pattern of the word is general knowledge). -/
def Obligations.AddWritesSumAndCarry : Prop :=
  ∀ (x y : Reg) (s : State), ∃ t, exec (.addVxVy x y) s = .next t ∧
    (t.getV x).toNat = ((s.getV x).toNat + (s.getV y).toNat) % 256 ∧
    (x ≠ regVF → t.getV regVF = if (s.getV x).toNat + (s.getV y).toNat > 255 then 1 else 0) ∧
    OnlyRegisters [x, regVF] s t

/-- Subtract and reverse subtract: the difference modulo 256 in Vx; VF is 1 when there is no borrow, equality included,
unless it is Vx (42_load_alu.md R167, R169, R173; `SUBN` is general knowledge, equality is D9). -/
def Obligations.SubtractsWriteDifferenceAndNotBorrow : Prop :=
  ∀ (x y : Reg) (s : State),
    (∃ t, exec (.subVxVy x y) s = .next t ∧
      (t.getV x).toNat = ((s.getV x).toNat + 256 - (s.getV y).toNat) % 256 ∧
      (x ≠ regVF → t.getV regVF = if (s.getV x).toNat ≥ (s.getV y).toNat then 1 else 0) ∧
      OnlyRegisters [x, regVF] s t) ∧
    (∃ t, exec (.subnVxVy x y) s = .next t ∧
      (t.getV x).toNat = ((s.getV y).toNat + 256 - (s.getV x).toNat) % 256 ∧
      (x ≠ regVF → t.getV regVF = if (s.getV y).toNat ≥ (s.getV x).toNat then 1 else 0) ∧
      OnlyRegisters [x, regVF] s t)

/-- The shifts move the captured Vx by one place, whatever `y` is; VF is the bit shifted out, unless it is Vx
(42_load_alu.md R168, R170; the flag is general knowledge, its order D8). -/
def Obligations.ShiftsMoveVxByOneAndIgnoreY : Prop :=
  ∀ (x y : Reg) (s : State),
    (∃ t, exec (.shrVx x y) s = .next t ∧ (t.getV x).toNat = (s.getV x).toNat / 2 ∧
      (x ≠ regVF → (t.getV regVF).toNat = (s.getV x).toNat % 2) ∧ OnlyRegisters [x, regVF] s t) ∧
    (∃ t, exec (.shlVx x y) s = .next t ∧ (t.getV x).toNat = (2 * (s.getV x).toNat) % 256 ∧
      (x ≠ regVF → (t.getV regVF).toNat = (s.getV x).toNat / 128) ∧ OnlyRegisters [x, regVF] s t) ∧
    ∀ z : Reg, exec (.shrVx x z) s = exec (.shrVx x y) s ∧ exec (.shlVx x z) s = exec (.shlVx x y) s

/-- Random: a free byte under the mask, so that no bit outside the mask is set; the draw is used up and nothing else
changes (42_load_alu.md R171, general knowledge and D15; the counter of draws is the model's, log 2). -/
def Obligations.RndMasksAFreeByte : Prop :=
  ∀ (x : Reg) (b : Byte) (s : State), ∃ t, exec (.rndVxByte x b) s = .next t ∧
    t.getV x = Config.randomByte s.draws &&& b ∧ t.getV x &&& ~~~b = 0 ∧
    (∀ r, r ≠ x → t.getV r = s.getV r) ∧ (∀ k, t.byteAt k = s.byteAt k) ∧
    t = { s with v := t.v, draws := s.draws + 1 }

/-! ## Index and memory -/

/-- 43_index_memory.md R190: I gets the 12-bit address and nothing else changes. -/
def Obligations.LdILoadsTheAddress : Prop :=
  ∀ (a : BitVec 12) (s : State), decode (formatAddr 0xA a) = .ok (.ldIAddr a) ∧
    exec (.ldIAddr a) s = .next { s with i := a.setWidth 16 }

/-- Add to I modulo 2^16 with no flag, and the glyph address 5 times the whole byte; only I changes (43_index_memory.md
R191, R192; general knowledge, D10, D11). -/
def Obligations.AddIAndGlyphAddressSetI : Prop :=
  ∀ (x : Reg) (s : State),
    (∃ t, exec (.addIVx x) s = .next t ∧ t.i.toNat = (s.i.toNat + (s.getV x).toNat) % 65536 ∧ t = { s with i := t.i }) ∧
    (∃ t, exec (.ldFVx x) s = .next t ∧ t.i.toNat = 5 * (s.getV x).toNat ∧ t = { s with i := t.i })

/-- Store BCD with room: hundreds, tens and ones at I, I+1, I+2; every other byte and everything else, I included, stays
(43_index_memory.md R194; the order is D22). -/
def Obligations.BcdStoresThreeDigits : Prop :=
  ∀ (x : Reg) (s : State), Memory.wf s.cfg s.mem → s.effectiveAddress 2 < s.cfg.memSize →
    ∃ t, exec (.ldBVx x) s = .next t ∧
      (t.byteAt (s.effectiveAddress 0)).toNat = (s.getV x).toNat / 100 ∧
      (t.byteAt (s.effectiveAddress 1)).toNat = (s.getV x).toNat / 10 % 10 ∧
      (t.byteAt (s.effectiveAddress 2)).toNat = (s.getV x).toNat % 10 ∧
      (∀ k, ¬(s.effectiveAddress 0 ≤ k ∧ k ≤ s.effectiveAddress 2) → t.byteAt k = s.byteAt k) ∧
      t = { s with mem := t.mem }

/-- Store BCD without room raises AddressOutOfRange at the first address that does not exist; the digits before it are
stored, every other byte and everything else but the latch stays (43_index_memory.md R194, 60_exceptions.md R275; D17,
D22). -/
def Obligations.BcdStopsAtTheEndOfMemory : Prop :=
  ∀ (x : Reg) (s : State), Memory.wf s.cfg s.mem → s.cfg.memSize ≤ s.effectiveAddress 2 →
    ∃ t, exec (.ldBVx x) s = .next t ∧ t.faulted = true ∧ t.faultCode = 1 ∧
      t.faultInfo = BitVec.ofNat 17 (max (s.effectiveAddress 0) s.cfg.memSize) ∧
      (s.effectiveAddress 0 < s.cfg.memSize → (t.byteAt (s.effectiveAddress 0)).toNat = (s.getV x).toNat / 100) ∧
      (s.effectiveAddress 1 < s.cfg.memSize → (t.byteAt (s.effectiveAddress 1)).toNat = (s.getV x).toNat / 10 % 10) ∧
      (∀ k, ¬(s.effectiveAddress 0 ≤ k ∧ k < s.cfg.memSize) → t.byteAt k = s.byteAt k) ∧
      t = { s with mem := t.mem, faulted := t.faulted, faultCode := t.faultCode, faultInfo := t.faultInfo }

/-- Store registers with room: V0 through Vx at I through I+x; every other byte and everything else, I included, stays
(43_index_memory.md R195; the order is general knowledge, I unchanged is D13). -/
def Obligations.StoreWritesV0ThroughVx : Prop :=
  ∀ (x : Reg) (s : State), Memory.wf s.cfg s.mem → s.effectiveAddress x.val < s.cfg.memSize →
    ∃ t, exec (.ldMemVx x) s = .next t ∧
      (∀ r : Reg, r ≤ x → t.byteAt (s.effectiveAddress r.val) = s.getV r) ∧
      (∀ k, ¬(s.effectiveAddress 0 ≤ k ∧ k ≤ s.effectiveAddress x.val) → t.byteAt k = s.byteAt k) ∧
      t = { s with mem := t.mem }

/-- Store registers without room raises at the first address that does not exist; the registers before it are stored
(43_index_memory.md R195, 60_exceptions.md R275; D13, D17). -/
def Obligations.StoreStopsAtTheEndOfMemory : Prop :=
  ∀ (x : Reg) (s : State), Memory.wf s.cfg s.mem → s.cfg.memSize ≤ s.effectiveAddress x.val →
    ∃ t, exec (.ldMemVx x) s = .next t ∧ t.faulted = true ∧ t.faultCode = 1 ∧
      t.faultInfo = BitVec.ofNat 17 (max (s.effectiveAddress 0) s.cfg.memSize) ∧
      (∀ r : Reg, s.effectiveAddress r.val < s.cfg.memSize → t.byteAt (s.effectiveAddress r.val) = s.getV r) ∧
      (∀ k, ¬(s.effectiveAddress 0 ≤ k ∧ k < s.cfg.memSize) → t.byteAt k = s.byteAt k) ∧
      t = { s with mem := t.mem, faulted := t.faulted, faultCode := t.faultCode, faultInfo := t.faultInfo }

/-- Load registers with room: V0 through Vx get the bytes at I through I+x; every other register and everything else, I
included, stays (43_index_memory.md R196; the order is general knowledge, I unchanged is D13). -/
def Obligations.LoadReadsV0ThroughVx : Prop :=
  ∀ (x : Reg) (s : State), s.effectiveAddress x.val < s.cfg.memSize →
    ∃ t, exec (.ldVxMem x) s = .next t ∧
      (∀ r : Reg, r ≤ x → t.getV r = s.byteAt (s.effectiveAddress r.val)) ∧ OnlyRegisters (regsThrough x) s t

/-- Load registers without room raises at the first address that does not exist; the registers before it are loaded, the
others and everything else but the latch stay (43_index_memory.md R196, 60_exceptions.md R275; D13, D17). -/
def Obligations.LoadStopsAtTheEndOfMemory : Prop :=
  ∀ (x : Reg) (s : State), s.cfg.memSize ≤ s.effectiveAddress x.val →
    ∃ t, exec (.ldVxMem x) s = .next t ∧ t.faulted = true ∧ t.faultCode = 1 ∧
      t.faultInfo = BitVec.ofNat 17 (max (s.effectiveAddress 0) s.cfg.memSize) ∧
      (∀ r : Reg, s.effectiveAddress r.val < s.cfg.memSize → t.getV r = s.byteAt (s.effectiveAddress r.val)) ∧
      (∀ r : Reg, s.cfg.memSize ≤ s.effectiveAddress r.val → t.getV r = s.getV r) ∧
      (∀ k, t.byteAt k = s.byteAt k) ∧
      t = { s with v := t.v, faulted := t.faulted, faultCode := t.faultCode, faultInfo := t.faultInfo }

/-- A store is seen by the next fetch, whichever of the two bytes at PC it covers: both, one or none. `hi` and `lo` are
the bytes fetched at PC and PC+1; each is the byte stored there, V0 through Vx by `FX55` for every x, a digit by `FX33`,
or what was there before (20_memory.md R79, 70_reset_and_hazards.md R321; the byte order is D2, the order of the digits
D22, the order of the registers general knowledge, the canonical form log 4). A store that raises halts the core, so no
fetch follows it. -/
def Obligations.StoredBytesAreTheNextWordFetched : Prop :=
  ∀ (x : Reg) (s : State), Memory.wf s.cfg s.mem → s.pc.toNat + 1 < s.cfg.memSize →
    (s.effectiveAddress x.val < s.cfg.memSize →
      ∃ t hi lo, exec (.ldMemVx x) s = .next t ∧ t.fetch = .ok (wordOfBytes hi lo) ∧
        (∀ r : Reg, r ≤ x → s.effectiveAddress r.val = s.pc.toNat → hi = s.getV r) ∧
        (∀ r : Reg, r ≤ x → s.effectiveAddress r.val = s.pc.toNat + 1 → lo = s.getV r) ∧
        ((∀ r : Reg, r ≤ x → s.effectiveAddress r.val ≠ s.pc.toNat) → hi = s.byteAt s.pc.toNat) ∧
        ((∀ r : Reg, r ≤ x → s.effectiveAddress r.val ≠ s.pc.toNat + 1) → lo = s.byteAt (s.pc.toNat + 1))) ∧
    (s.effectiveAddress 2 < s.cfg.memSize →
      ∃ t hi lo, exec (.ldBVx x) s = .next t ∧ t.fetch = .ok (wordOfBytes hi lo) ∧
        (s.effectiveAddress 0 = s.pc.toNat → hi.toNat = (s.getV x).toNat / 100) ∧
        (s.effectiveAddress 1 = s.pc.toNat → hi.toNat = (s.getV x).toNat / 10 % 10) ∧
        (s.effectiveAddress 2 = s.pc.toNat → hi.toNat = (s.getV x).toNat % 10) ∧
        (s.effectiveAddress 0 = s.pc.toNat + 1 → lo.toNat = (s.getV x).toNat / 100) ∧
        (s.effectiveAddress 1 = s.pc.toNat + 1 → lo.toNat = (s.getV x).toNat / 10 % 10) ∧
        (s.effectiveAddress 2 = s.pc.toNat + 1 → lo.toNat = (s.getV x).toNat % 10) ∧
        ((∀ k < 3, s.effectiveAddress k ≠ s.pc.toNat) → hi = s.byteAt s.pc.toNat) ∧
        ((∀ k < 3, s.effectiveAddress k ≠ s.pc.toNat + 1) → lo = s.byteAt (s.pc.toNat + 1)))

/-! ## Display -/

/-- Clear: every cell 0, `dirty` 1, nothing else changed (44_display.md R210; the pattern of the word is general
knowledge). -/
def Obligations.ClsBlanksTheDisplay : Prop :=
  ∀ s : State, ∃ t, exec .cls s = .next t ∧ (∀ r c, t.cell r c = false) ∧
    t = { s with disp := t.disp, dirty := true }

/-- Draw, when every sprite byte exists: each cell is XORed with the sprite's pixel on it, the origin captured and
nothing wrapping; VF is 1 exactly when a lit cell is erased, else 0; `dirty` is 1; nothing else changes (44_display.md
R211 to R216; the fields and the bit order are general knowledge, the origin and the sticky flag are D16). -/
def Obligations.DrwXorsTheClippedSpriteAndFlagsErasure : Prop :=
  ∀ (x y : Reg) (n : Nat) (s : State), (s.effectiveAddress n ≤ s.cfg.memSize ∨ n = 0) →
    ∃ t, exec (.drwVxVyN x y n) s = .next t ∧
      (∀ r c, t.cell r c = (s.cell r c ^^
        spritePixel (s.getV x).toNat (s.getV y).toNat n (fun j => s.byteAt (s.effectiveAddress j)) r c)) ∧
      ((∃ r c, s.cell r c = true ∧ t.cell r c = false) → t.getV regVF = 1) ∧
      ((¬∃ r c, s.cell r c = true ∧ t.cell r c = false) → t.getV regVF = 0) ∧
      (∀ r, r ≠ regVF → t.getV r = s.getV r) ∧ (∀ k, t.byteAt k = s.byteAt k) ∧
      t = { s with v := t.v, disp := t.disp, dirty := true }

/-- A sprite byte that does not exist raises before VF, the display or `dirty` is touched (44_display.md R211, R215;
D16, D17). -/
def Obligations.DrwSpriteReadFaultTouchesNothing : Prop :=
  ∀ (x y : Reg) (n : Nat) (s : State), n ≠ 0 → s.cfg.memSize < s.effectiveAddress n →
    exec (.drwVxVyN x y n) s = .next { s with
      faulted := true, faultCode := 1, faultInfo := BitVec.ofNat 17 (max (s.effectiveAddress 0) s.cfg.memSize) }

/-- Drawing the same sprite twice from registers that are not VF restores every cell, and the second draw sets VF
exactly when some on-screen sprite bit fell on a cell that was 0 before the first (44_display.md R211, R213, R217; this
is what R211 gives, narrower than R217's sentence, log 13). -/
def Obligations.DrawingTwiceRestoresTheDisplay : Prop :=
  ∀ (x y : Reg) (n : Nat) (s t : State), x ≠ regVF → y ≠ regVF →
    (s.effectiveAddress n ≤ s.cfg.memSize ∨ n = 0) → exec (.drwVxVyN x y n) s = .next t →
    ∃ u, exec (.drwVxVyN x y n) t = .next u ∧ (∀ r c, u.cell r c = s.cell r c) ∧
      (u.getV regVF = 1 ↔ ∃ r c, s.cell r c = false ∧
        spritePixel (s.getV x).toNat (s.getV y).toNat n (fun j => s.byteAt (s.effectiveAddress j)) r c = true)

/-- The sentence of 44_display.md R217 as it stands, "gives `VF = 1` on the second draw if the sprite has at least one
on-screen bit 1", for every starting display. It is expected to FAIL: where the first draw erases every lit cell it
touches, the second erases none (log 13). -/
def Obligations.DrawingTwiceAlwaysCollides : Prop :=
  ∀ (x y : Reg) (n : Nat) (s t u : State), x ≠ regVF → y ≠ regVF →
    s.effectiveAddress n ≤ s.cfg.memSize → exec (.drwVxVyN x y n) s = .next t → exec (.drwVxVyN x y n) t = .next u →
    (∃ r c, spritePixel (s.getV x).toNat (s.getV y).toNat n (fun j => s.byteAt (s.effectiveAddress j)) r c = true) →
    u.getV regVF = 1

/-! ## Keys and timers -/

/-- The two key skips test the whole byte as the key number; a number above 15 is a key that is not pressed
(45_keys_timers.md R230, R231; general knowledge, the layout of `keys` is D6). -/
def Obligations.SkipsOnKeysTestTheWholeByte : Prop :=
  ∀ (x : Reg) (s : State),
    exec (.skpVx x) s = .next { s with
      pc := if (s.getV x).toNat < 16 ∧ s.keys.getLsbD (s.getV x).toNat = true then s.pc + 2 else s.pc } ∧
    exec (.sknpVx x) s = .next { s with
      pc := if (s.getV x).toNat < 16 ∧ s.keys.getLsbD (s.getV x).toNat = true then s.pc else s.pc + 2 }

/-- With a key pressed the key wait takes the lowest pressed key into Vx and nothing else changes; with none it moves PC
back by 2 and nothing else changes (45_keys_timers.md R232; the lowest key is D14). -/
def Obligations.LdVxKTakesTheLowestKeyOrGoesBack : Prop :=
  ∀ (x : Reg) (s : State),
    (s.keys ≠ 0 → ∃ t k, exec (.ldVxK x) s = .next t ∧ k < 16 ∧ s.keys.getLsbD k = true ∧
      (∀ j < k, s.keys.getLsbD j = false) ∧ (t.getV x).toNat = k ∧ OnlyRegisters [x] s t) ∧
    (s.keys = 0 → exec (.ldVxK x) s = .next { s with pc := s.pc - 2 })

/-- A whole step of a key wait with no key pressed: PC, the registers and everything else stay, IR holds the word, and
the timers tick (45_keys_timers.md R232, 40_step_cycle.md R127). -/
def Obligations.KeyWaitStepLeavesPcAndTicksTheTimers : Prop :=
  ∀ (x : Reg) (s : State), s.FetchesWord (encode (.ldVxK x)) → s.keys = 0 →
    step s = .next { s with
      ir := encode (.ldVxK x)
      dt := if s.dt = 0 then 0 else s.dt - 1
      st := if s.st = 0 then 0 else s.st - 1
      toneStop := decide (s.st = 1) }

/-- The timer moves: Vx gets DT, DT gets Vx, ST gets Vx, and nothing else changes (45_keys_timers.md R233 to R235;
general knowledge). -/
def Obligations.TimerMovesCopyOneByte : Prop :=
  ∀ (x : Reg) (s : State),
    (∃ t, exec (.ldVxDt x) s = .next t ∧ t.getV x = s.dt ∧ OnlyRegisters [x] s t) ∧
    exec (.ldDtVx x) s = .next { s with dt := s.getV x } ∧
    exec (.ldStVx x) s = .next { s with st := s.getV x }

/-! ## Resets and host commands -/

/-- 70_reset_and_hazards.md R312 and R314: the soft reset is accepted in any state, touches neither memory nor the input
latch, is idempotent, and leaves PC at 0x200. -/
def Obligations.SoftResetIsIdempotentAndKeepsMemoryAndKeys : Prop :=
  ∀ s : State, command .reset s = .next (s.softReset, .none) ∧ (∀ k, s.softReset.byteAt k = s.byteAt k) ∧ s.softReset.mem = s.mem ∧ s.softReset.keys = s.keys ∧
    s.softReset.softReset = s.softReset ∧ s.softReset.pc = 0x200

/-- What the cold reset leaves: the font and zeros in memory, registers, stack, timers and display cleared, PC at 0x200
(10_state.md R44, 70_reset_and_hazards.md R313; D3; `dirty`, `keys`, IR, tone_stop and the latch are D17, D19, D25), and
what the soft reset of any state leaves is the same but for memory and keys (R311). `State.reset` is a cold reset with the
default parameters (log 1). -/
def Obligations.ResetsClearTheCore : Prop :=
  State.reset = State.coldReset Config.standard ∧
  (∀ (c : Config) (a : Nat), (State.coldReset c).byteAt a = if h : a < 80 then c.font[a] else 0) ∧
  (∀ c : Config, (State.coldReset c).keys = 0) ∧
  ∀ (c : Config) (s t : State), (t = State.coldReset c ∨ t = s.softReset) →
    (∀ r, t.getV r = 0) ∧ t.i = 0 ∧ t.sp = 0 ∧ t.pc = 0x200 ∧ t.stack = [] ∧ t.dt = 0 ∧ t.st = 0 ∧
    (∀ r c, t.cell r c = false) ∧ t.dirty = true ∧ t.ir = 0 ∧ t.toneStop = false ∧
    t.faulted = false ∧ t.faultCode = 0 ∧ t.faultInfo = 0

/-- Press and release set and clear the one bit of their key and nothing else; a key above 15 changes nothing
(46_host_commands.md R254, R255; the layout of `keys` is D6). -/
def Obligations.PressAndReleaseChangeOneKeyBit : Prop :=
  ∀ (s : State) (k : Nat),
    (∀ j < 16, (s.press k).keys.getLsbD j = if j = k then true else s.keys.getLsbD j) ∧
    s.press k = { s with keys := (s.press k).keys } ∧
    (∀ j < 16, (s.release k).keys.getLsbD j = if j = k then false else s.keys.getLsbD j) ∧
    s.release k = { s with keys := (s.release k).keys } ∧
    (16 ≤ k → s.press k = s ∧ s.release k = s)

/-- `ack_dirty` sets `dirty` to 0 and changes nothing else, and it alone does: under every other command, a step of any
instruction included, a `dirty` of 1 stays 1. `observe` changes nothing and returns the registers, the display, the
latches and the stack, the oldest entry first (10_state.md R37, 46_host_commands.md R257, R258; that clearing is a command
of its own is D29, the stack, tone_stop and the fault latch in the snapshot are D20). -/
def Obligations.AckDirtyAloneClearsDirtyAndObserveOnlyLooks : Prop :=
  (∀ s : State, command .ackDirty s = .next ({ s with dirty := false }, .none)) ∧
  (∀ (c : Command) (s t : State) (r : Reply), c ≠ .ackDirty → s.dirty = true → command c s = .next (t, r) →
    t.dirty = true) ∧
  ∀ s : State, ∃ o, command .observe s = .next (s, .observed o) ∧
    o.v = s.v ∧ o.i = s.i ∧ o.sp = s.sp ∧ o.pc = s.pc ∧ o.dt = s.dt ∧ o.st = s.st ∧ o.ir = s.ir ∧ o.disp = s.disp ∧
    o.dirty = s.dirty ∧ o.keys = s.keys ∧ o.stack = s.stack.reverse ∧ o.depth = s.stack.length ∧
    o.toneStop = s.toneStop ∧ o.faulted = s.faulted ∧ o.faultCode = s.faultCode ∧ o.faultInfo = s.faultInfo

/-- Load is all or nothing and touches memory only: accepted exactly when the offset is past the font and the image fits
(46_host_commands.md R256, 60_exceptions.md R276; D21). -/
def Obligations.LoadIsAllOrNothing : Prop :=
  ∀ (s : State) (bytes : List Byte) (offset : Nat), Memory.wf s.cfg s.mem →
    (0x050 ≤ offset ∧ offset + bytes.length ≤ s.cfg.memSize →
      ∃ t, s.load bytes offset = (.accepted, t) ∧
        (∀ k, k < bytes.length → t.byteAt (offset + k) = bytes.getD k 0) ∧
        (∀ k, ¬(offset ≤ k ∧ k < offset + bytes.length) → t.byteAt k = s.byteAt k) ∧ t = { s with mem := t.mem }) ∧
    (¬(0x050 ≤ offset ∧ offset + bytes.length ≤ s.cfg.memSize) → s.load bytes offset = (.rejected, s))

/-! ## The whole machine -/

/-- No instruction writes SP or reads it, both resets set it to 0, and no command of the host moves it from 0 (10_state.md
R24). That SP is not read is said by two runs that differ in SP alone; in both, `CXNN` sees the same free byte, since both
have the same `draws` (log 2, DESIGN CHOICE). -/
def Obligations.NoInstructionReadsOrWritesSp : Prop :=
  (∀ (i : Instr) (s t : State), exec i s = .next t → t.sp = s.sp) ∧
  (∀ (i : Instr) (s t : State) (p : Word), exec i s = .next t → exec i { s with sp := p } = .next { t with sp := p }) ∧
  (∀ s : State, s.softReset.sp = 0) ∧ (∀ c : Config, (State.coldReset c).sp = 0) ∧
  ∀ (c : Command) (s t : State) (r : Reply), s.sp = 0 → command c s = .next (t, r) → t.sp = 0

/-- Each piece of state is written by the instructions the spec names and no other: registers by their destinations and
VF by the six of 10_state.md R22, I by three (R23), SP by none (R24), PC, as advanced, by the jumps, the call, the return,
the skips and the key wait (R27), the stack by two (R30), DT and ST by one each (R32), memory by two (R34), the display
and `dirty` by two (R36, R37), `keys` by none (R39), the fault latch by the six that can raise (60_exceptions.md R270),
IR and tone_stop by none (R29, R33), the draws by `CXNN` alone (log 2), the parameters by none (log 1). -/
def Obligations.EachPieceOfStateHasItsWriters : Prop :=
  ∀ (i : Instr) (s t : State), exec i s = .next t →
    (∀ r, r ∉ registersWritten i → t.getV r = s.getV r) ∧
    ((∀ a, i ≠ .ldIAddr a) → (∀ x, i ≠ .addIVx x) → (∀ x, i ≠ .ldFVx x) → t.i = s.i) ∧
    (i ≠ .ret → (∀ a, i ≠ .jpAddr a) → (∀ a, i ≠ .callAddr a) → (∀ a, i ≠ .jpV0Addr a) →
      (∀ x b, i ≠ .seVxByte x b) → (∀ x b, i ≠ .sneVxByte x b) → (∀ x y, i ≠ .seVxVy x y) →
      (∀ x y, i ≠ .sneVxVy x y) → (∀ x, i ≠ .skpVx x) → (∀ x, i ≠ .sknpVx x) → (∀ x, i ≠ .ldVxK x) → t.pc = s.pc) ∧
    (i ≠ .ret → (∀ a, i ≠ .callAddr a) → t.stack = s.stack) ∧
    ((∀ x, i ≠ .ldDtVx x) → t.dt = s.dt) ∧
    ((∀ x, i ≠ .ldStVx x) → t.st = s.st) ∧
    ((∀ x, i ≠ .ldBVx x) → (∀ x, i ≠ .ldMemVx x) → t.mem = s.mem ∧ ∀ k, t.byteAt k = s.byteAt k) ∧
    (i ≠ .cls → (∀ x y n, i ≠ .drwVxVyN x y n) → t.disp = s.disp ∧ t.dirty = s.dirty) ∧
    (i ≠ .ret → (∀ a, i ≠ .callAddr a) → (∀ x y n, i ≠ .drwVxVyN x y n) → (∀ x, i ≠ .ldBVx x) →
      (∀ x, i ≠ .ldMemVx x) → (∀ x, i ≠ .ldVxMem x) →
      t.faulted = s.faulted ∧ t.faultCode = s.faultCode ∧ t.faultInfo = s.faultInfo) ∧
    ((∀ x b, i ≠ .rndVxByte x b) → t.draws = s.draws) ∧
    t.sp = s.sp ∧ t.keys = s.keys ∧ t.ir = s.ir ∧ t.toneStop = s.toneStop ∧ t.cfg = s.cfg

/-- No instruction reads IR, SP, ST, tone_stop or `dirty`: two cores that differ in these alone still differ in these
alone after a step (10_state.md R24, R29, R32, R33, R37). Both cores have the same `draws`, so a `CXNN` draws the same free
byte in both (log 2, DESIGN CHOICE). -/
def Obligations.ProgramsCannotReadTheObservationState : Prop :=
  ∀ s s' : State, s.hideUnread = s'.hideUnread →
    ∃ t t', step s = .next t ∧ step s' = .next t' ∧ t.hideUnread = t'.hideUnread

/-- At the end of a run, a jump to itself with both timers 0, one step leaves everything but IR and tone_stop, and from
there the state is a fixed point (46_host_commands.md R260, the spec's own suggestion, D27). -/
def Obligations.EndOfRunIsAFixedPoint : Prop :=
  ∀ s : State, s.EndOfRun →
    ∃ t, step s = .next t ∧ t = { s with ir := t.ir, toneStop := false } ∧ step t = .next t

/-- The invariant holds after a cold reset with any parameters in range, and so of `State.reset`. -/
def Obligations.ColdResetMeetsTheInvariant : Prop :=
  State.reset.Inv ∧ ∀ c : Config, c.WellFormed → (State.coldReset c).Inv

/-- The invariant is kept by every step, from every state that meets it. -/
def Obligations.EveryStepKeepsTheInvariant : Prop :=
  ∀ s t : State, s.Inv → step s = .next t → t.Inv

/-- Every run of host commands, whatever they are and in whatever order, ends in a next state and keeps the invariant
(46_host_commands.md R251, R259). -/
def Obligations.EveryCommandRunKeepsTheInvariant : Prop :=
  ∀ (cs : List Command) (s : State), s.Inv → ∃ t, runCommands cs s = .next t ∧ t.Inv
end

