-- ==== Sys2Proof/Laws/Decode.lean ====
section
/-! SUPPORT. The fields of a word put together from fields, and a word put together again from its own fields: what
decoding and encoding rest on. -/

namespace Sys2Proof

@[simp] theorem regBits_toFin (r : Reg) : (regBits r).toFin = r := rfl

@[simp] theorem regBits_fieldX (w : Word) : regBits (fieldX w) = w.extractLsb' 8 4 := rfl

@[simp] theorem regBits_fieldY (w : Word) : regBits (fieldY w) = w.extractLsb' 4 4 := rfl

/-! ### The bits of a format -/

theorem getLsbD_formatAddr (g : BitVec 4) (a : BitVec 12) (i : Nat) :
    (formatAddr g a).getLsbD i = if i < 12 then a.getLsbD i else g.getLsbD (i - 12) :=
  BitVec.getLsbD_append

theorem getLsbD_formatXByte (g : BitVec 4) (x : Reg) (b : Byte) (i : Nat) :
    (formatXByte g x b).getLsbD i =
      if i < 8 then b.getLsbD i else if i - 8 < 4 then (regBits x).getLsbD (i - 8) else g.getLsbD (i - 8 - 4) :=
  BitVec.getLsbD_append.trans (by rw [BitVec.getLsbD_append])

theorem getLsbD_formatXYN (g : BitVec 4) (x y : Reg) (n : BitVec 4) (i : Nat) :
    (formatXYN g x y n).getLsbD i =
      if i < 4 then n.getLsbD i else if i - 4 < 4 then (regBits y).getLsbD (i - 4)
      else if i - 4 - 4 < 4 then (regBits x).getLsbD (i - 4 - 4) else g.getLsbD (i - 4 - 4 - 4) :=
  BitVec.getLsbD_append.trans (by rw [BitVec.getLsbD_append, BitVec.getLsbD_append])

/-! ### Fields of a format -/

@[simp] theorem fieldGroup_formatAddr (g : BitVec 4) (a : BitVec 12) : fieldGroup (formatAddr g a) = g := by
  apply BitVec.eq_of_getLsbD_eq
  intro i hi
  rw [fieldGroup, BitVec.getLsbD_extractLsb', getLsbD_formatAddr]
  grind

@[simp] theorem fieldAddr_formatAddr (g : BitVec 4) (a : BitVec 12) : fieldAddr (formatAddr g a) = a := by
  apply BitVec.eq_of_getLsbD_eq
  intro i hi
  rw [fieldAddr, BitVec.getLsbD_extractLsb', getLsbD_formatAddr]
  grind

@[simp] theorem fieldGroup_formatXByte (g : BitVec 4) (x : Reg) (b : Byte) : fieldGroup (formatXByte g x b) = g := by
  apply BitVec.eq_of_getLsbD_eq
  intro i hi
  rw [fieldGroup, BitVec.getLsbD_extractLsb', getLsbD_formatXByte]
  grind

@[simp] theorem fieldX_formatXByte (g : BitVec 4) (x : Reg) (b : Byte) : fieldX (formatXByte g x b) = x := by
  have : (formatXByte g x b).extractLsb' 8 4 = regBits x := by
    apply BitVec.eq_of_getLsbD_eq
    intro i hi
    rw [BitVec.getLsbD_extractLsb', getLsbD_formatXByte]
    grind
  rw [fieldX, this, regBits_toFin]

@[simp] theorem fieldByte_formatXByte (g : BitVec 4) (x : Reg) (b : Byte) : fieldByte (formatXByte g x b) = b := by
  apply BitVec.eq_of_getLsbD_eq
  intro i hi
  rw [fieldByte, BitVec.getLsbD_extractLsb', getLsbD_formatXByte]
  grind

@[simp] theorem fieldGroup_formatXYN (g : BitVec 4) (x y : Reg) (n : BitVec 4) : fieldGroup (formatXYN g x y n) = g := by
  apply BitVec.eq_of_getLsbD_eq
  intro i hi
  rw [fieldGroup, BitVec.getLsbD_extractLsb', getLsbD_formatXYN]
  grind

@[simp] theorem fieldX_formatXYN (g : BitVec 4) (x y : Reg) (n : BitVec 4) : fieldX (formatXYN g x y n) = x := by
  have : (formatXYN g x y n).extractLsb' 8 4 = regBits x := by
    apply BitVec.eq_of_getLsbD_eq
    intro i hi
    rw [BitVec.getLsbD_extractLsb', getLsbD_formatXYN]
    grind
  rw [fieldX, this, regBits_toFin]

@[simp] theorem fieldY_formatXYN (g : BitVec 4) (x y : Reg) (n : BitVec 4) : fieldY (formatXYN g x y n) = y := by
  have : (formatXYN g x y n).extractLsb' 4 4 = regBits y := by
    apply BitVec.eq_of_getLsbD_eq
    intro i hi
    rw [BitVec.getLsbD_extractLsb', getLsbD_formatXYN]
    grind
  rw [fieldY, this, regBits_toFin]

@[simp] theorem fieldN_formatXYN (g : BitVec 4) (x y : Reg) (n : BitVec 4) : fieldN (formatXYN g x y n) = n := by
  apply BitVec.eq_of_getLsbD_eq
  intro i hi
  rw [fieldN, BitVec.getLsbD_extractLsb', getLsbD_formatXYN]
  grind

/-! ### A word from its own fields -/

theorem formatAddr_fields (w : Word) : formatAddr (fieldGroup w) (fieldAddr w) = w := by
  ext i hi
  simp [formatAddr, fieldGroup, fieldAddr]
  grind

theorem formatXByte_fields (w : Word) : formatXByte (fieldGroup w) (fieldX w) (fieldByte w) = w := by
  ext i hi
  simp [formatXByte, fieldGroup, fieldByte]
  grind

theorem formatXYN_fields (w : Word) : formatXYN (fieldGroup w) (fieldX w) (fieldY w) (fieldN w) = w := by
  ext i hi
  simp [formatXYN, fieldGroup, fieldN]
  grind

/-- Bytes laid out and read back are the word (20_memory.md R65). -/
theorem wordOfBytes_bytesOfWord (w : Word) : wordOfBytes (w.extractLsb' 8 8) (w.extractLsb' 0 8) = w := by
  ext i hi
  simp [wordOfBytes]
  grind

end Sys2Proof
end

