-- ==== Sys2Proof/Laws/Memory.lean ====
section
/-! SUPPORT. The laws of memory as data: a byte written is read back, every other byte stays, the canonical form is
kept. -/

namespace Sys2Proof.Machine

theorem Memory.entry_of_forall_lt {m : Memory} {a : Nat} (h : ∀ p ∈ m, a < p.1) : m.entry a = none := by
  induction m with
  | nil => rfl
  | cons p m ih =>
    obtain ⟨k, b⟩ := p
    have hk : a < k := h (k, b) List.mem_cons_self
    have : k ≠ a := by omega
    simp only [Memory.entry, this, if_false]
    exact ih fun p hp => h p (List.mem_cons_of_mem _ hp)

/-- Every entry of a changed memory is the new one or an old one of another address. -/
theorem Memory.mem_put {m : Memory} {a : Nat} {e : Option Byte} {p : Host.Cell} (hs : m.Pairwise (fun p q => p.1 < q.1))
    (h : p ∈ m.put a e) : (e = some p.2 ∧ p.1 = a) ∨ (p ∈ m ∧ p.1 ≠ a) := by
  induction m with
  | nil => cases e <;> simp_all [Memory.put]
  | cons q m ih =>
    obtain ⟨k, x⟩ := q
    obtain ⟨hq, hs⟩ := List.pairwise_cons.mp hs
    simp only [Memory.put] at h
    by_cases hk : k < a
    · simp only [hk, if_true, List.mem_cons] at h
      rcases h with rfl | h
      · exact .inr ⟨List.mem_cons_self, by simp; omega⟩
      · rcases ih hs h with h | ⟨h, hne⟩
        · exact .inl h
        · exact .inr ⟨List.mem_cons_of_mem _ h, hne⟩
    · have old : ∀ r ∈ (if k = a then m else (k, x) :: m), r ∈ (k, x) :: m ∧ r.1 ≠ a := by
        intro r hr
        by_cases hka : k = a
        · simp only [hka, if_true] at hr
          have := hq r hr
          exact ⟨List.mem_cons_of_mem _ hr, by simp at this; omega⟩
        · simp only [hka, if_false] at hr
          refine ⟨hr, ?_⟩
          rcases List.mem_cons.mp hr with rfl | hr
          · exact hka
          · have := hq r hr; simp at this; omega
      cases e with
      | none => simp only [hk, if_false] at h; exact .inr (old p h)
      | some b =>
        simp only [hk, if_false, List.mem_cons] at h
        rcases h with rfl | h
        · exact .inl ⟨rfl, rfl⟩
        · exact .inr (old p h)

theorem Memory.put_pairwise {m : Memory} (a : Nat) (e : Option Byte) (hs : m.Pairwise (fun p q => p.1 < q.1)) :
    (m.put a e).Pairwise (fun p q => p.1 < q.1) := by
  induction m with
  | nil => cases e <;> simp [Memory.put]
  | cons q m ih =>
    obtain ⟨k, x⟩ := q
    obtain ⟨hq, hm⟩ := List.pairwise_cons.mp hs
    simp only [Memory.put]
    by_cases hk : k < a
    · simp only [hk, if_true]
      refine List.pairwise_cons.mpr ⟨fun r hr => ?_, ih hm⟩
      rcases Memory.mem_put hm hr with ⟨-, h⟩ | ⟨h, -⟩
      · simpa [h] using hk
      · exact hq r h
    · have sub : (if k = a then m else (k, x) :: m).Pairwise (fun p q => p.1 < q.1) := by
        split
        · exact hm
        · exact hs
      cases e with
      | none => simpa only [hk, if_false] using sub
      | some b =>
        simp only [hk, if_false]
        refine List.pairwise_cons.mpr ⟨fun r hr => ?_, sub⟩
        by_cases hka : k = a
        · simp only [hka, if_true] at hr
          have := hq r hr; simp at this; omega
        · simp only [hka, if_false] at hr
          rcases List.mem_cons.mp hr with rfl | hr
          · simp; omega
          · have := hq r hr; simp at this; omega

theorem Memory.entry_put {m : Memory} (a : Nat) (e : Option Byte) (k : Nat) (hs : m.Pairwise (fun p q => p.1 < q.1)) :
    (m.put a e).entry k = if k = a then e else m.entry k := by
  induction m with
  | nil =>
    cases e with
    | none => simp [Memory.put, Memory.entry]
    | some b =>
      by_cases h : k = a
      · simp [Memory.put, Memory.entry, h]
      · simp [Memory.put, Memory.entry, h, Ne.symm h]
  | cons q m ih =>
    obtain ⟨l, x⟩ := q
    obtain ⟨hq, hm⟩ := List.pairwise_cons.mp hs
    simp only [Memory.put]
    by_cases hl : l < a
    · simp only [hl, if_true, Memory.entry, ih hm]
      by_cases hk : k = a
      · subst hk
        have : l ≠ k := by omega
        simp [this]
      · simp [hk]
    · simp only [hl, if_false]
      have rest : k ≠ a → Memory.entry (if l = a then m else (l, x) :: m) k = Memory.entry ((l, x) :: m) k := by
        intro hk
        split
        · have : l ≠ k := by omega
          simp [Memory.entry, this]
        · rfl
      have gone : Memory.entry (if l = a then m else (l, x) :: m) a = none := by
        apply Memory.entry_of_forall_lt
        intro p hp
        by_cases hla : l = a
        · simp only [hla, if_true] at hp
          have := hq p hp; simp at this; omega
        · simp only [hla, if_false] at hp
          rcases List.mem_cons.mp hp with rfl | hp
          · simp; omega
          · have := hq p hp; simp at this; omega
      by_cases hk : k = a
      · subst hk
        cases e with
        | none => simpa using gone
        | some b => simp [Memory.entry]
      · have hak : a ≠ k := fun h => hk h.symm
        cases e with
        | none => simpa [hk] using rest hk
        | some b => simpa [Memory.entry, hk, hak] using rest hk

/-- A byte written is read back, and every other byte is what it was (20_memory.md R61). -/
theorem Memory.read_write {c : Config} {m : Memory} (a : Nat) (b : Byte) (k : Nat) (h : Memory.wf c m) :
    Memory.read c (Memory.write c m a b) k = if k = a then b else Memory.read c m k := by
  simp only [Memory.read, Memory.write, Memory.entry_put a _ k h.1]
  by_cases hk : k = a
  · by_cases hb : b = Memory.unlisted c a <;> simp [hk, hb]
  · simp [hk]

theorem Memory.write_wf {c : Config} {m : Memory} {a : Nat} (b : Byte) (h : Memory.wf c m) (ha : a < c.memSize) :
    Memory.wf c (Memory.write c m a b) := by
  refine ⟨Memory.put_pairwise _ _ h.1, fun p hp => ?_⟩
  rcases Memory.mem_put h.1 hp with ⟨he, hpa⟩ | ⟨hp, -⟩
  · by_cases hb : b = Memory.unlisted c a
    · simp [hb] at he
    · simp only [hb, if_false, Option.some.injEq] at he
      subst hpa
      exact ⟨ha, he ▸ hb⟩
  · exact h.2 p hp

theorem Memory.writeAll_wf {c : Config} {m : Memory} {a : Nat} (bs : List Byte) (h : Memory.wf c m)
    (ha : a + bs.length ≤ c.memSize ∨ bs = []) : Memory.wf c (Memory.writeAll c m a bs) := by
  induction bs generalizing m a with
  | nil => exact h
  | cons b bs ih =>
    rcases ha with ha | ha
    · simp only [List.length_cons] at ha
      exact ih (Memory.write_wf b h (by omega)) (.inl (by omega))
    · cases ha

/-- A run of bytes written is read back, and every byte outside it is what it was. -/
theorem Memory.read_writeAll {c : Config} {m : Memory} {a : Nat} (bs : List Byte) (k : Nat) (h : Memory.wf c m)
    (ha : a + bs.length ≤ c.memSize ∨ bs = []) :
    Memory.read c (Memory.writeAll c m a bs) k =
      if a ≤ k ∧ k < a + bs.length then bs.getD (k - a) 0 else Memory.read c m k := by
  induction bs generalizing m a with
  | nil => simp [Memory.writeAll]
  | cons b bs ih =>
    rcases ha with ha | ha
    · simp only [List.length_cons] at ha
      rw [Memory.writeAll, ih (Memory.write_wf b h (by omega)) (.inl (by omega)), Memory.read_write a b k h]
      simp only [List.length_cons]
      by_cases hk : k = a
      · subst hk; simp
      · by_cases hin : a + 1 ≤ k ∧ k < a + 1 + bs.length
        · obtain ⟨j, hj⟩ : ∃ j, k - a = j + 1 := ⟨k - a - 1, by omega⟩
          have : k - (a + 1) = j := by omega
          rw [if_pos hin, if_pos (by omega), hj, this]
          rfl
        · rw [if_neg hin, if_neg hk, if_neg (by omega)]
    · cases ha

/-- The reset memory is in canonical form. -/
theorem Memory.nil_wf (c : Config) : Memory.wf c [] := by simp [Memory.wf]

end Sys2Proof.Machine
end

