-- ==== Sys2Proof/Laws/State.lean ====
section
/-! SUPPORT. One lemma for each field and each named update of the state, so that no later proof unfolds an update. -/

namespace Sys2Proof.Machine

/-! ### setV -/

@[simp] theorem State.setV_v (s : State) (r : Reg) (b : Byte) : (s.setV r b).v = s.v.set r.val b := rfl
@[simp] theorem State.setV_i (s : State) (r : Reg) (b : Byte) : (s.setV r b).i = s.i := rfl
@[simp] theorem State.setV_sp (s : State) (r : Reg) (b : Byte) : (s.setV r b).sp = s.sp := rfl
@[simp] theorem State.setV_pc (s : State) (r : Reg) (b : Byte) : (s.setV r b).pc = s.pc := rfl
@[simp] theorem State.setV_ir (s : State) (r : Reg) (b : Byte) : (s.setV r b).ir = s.ir := rfl
@[simp] theorem State.setV_stack (s : State) (r : Reg) (b : Byte) : (s.setV r b).stack = s.stack := rfl
@[simp] theorem State.setV_dt (s : State) (r : Reg) (b : Byte) : (s.setV r b).dt = s.dt := rfl
@[simp] theorem State.setV_st (s : State) (r : Reg) (b : Byte) : (s.setV r b).st = s.st := rfl
@[simp] theorem State.setV_toneStop (s : State) (r : Reg) (b : Byte) : (s.setV r b).toneStop = s.toneStop := rfl
@[simp] theorem State.setV_mem (s : State) (r : Reg) (b : Byte) : (s.setV r b).mem = s.mem := rfl
@[simp] theorem State.setV_disp (s : State) (r : Reg) (b : Byte) : (s.setV r b).disp = s.disp := rfl
@[simp] theorem State.setV_dirty (s : State) (r : Reg) (b : Byte) : (s.setV r b).dirty = s.dirty := rfl
@[simp] theorem State.setV_keys (s : State) (r : Reg) (b : Byte) : (s.setV r b).keys = s.keys := rfl
@[simp] theorem State.setV_faulted (s : State) (r : Reg) (b : Byte) : (s.setV r b).faulted = s.faulted := rfl
@[simp] theorem State.setV_faultCode (s : State) (r : Reg) (b : Byte) : (s.setV r b).faultCode = s.faultCode := rfl
@[simp] theorem State.setV_faultInfo (s : State) (r : Reg) (b : Byte) : (s.setV r b).faultInfo = s.faultInfo := rfl
@[simp] theorem State.setV_draws (s : State) (r : Reg) (b : Byte) : (s.setV r b).draws = s.draws := rfl
@[simp] theorem State.setV_cfg (s : State) (r : Reg) (b : Byte) : (s.setV r b).cfg = s.cfg := rfl
@[simp] theorem State.setV_byteAt (s : State) (r : Reg) (b : Byte) (k : Nat) : (s.setV r b).byteAt k = s.byteAt k := rfl
@[simp] theorem State.setV_cell (s : State) (r : Reg) (b : Byte) (p' : Fin 32) (q' : Fin 64) : (s.setV r b).cell p' q' = s.cell p' q' := rfl

/-! ### setPc -/

@[simp] theorem State.setPc_v (s : State) (a : Word) : (s.setPc a).v = s.v := rfl
@[simp] theorem State.setPc_i (s : State) (a : Word) : (s.setPc a).i = s.i := rfl
@[simp] theorem State.setPc_sp (s : State) (a : Word) : (s.setPc a).sp = s.sp := rfl
@[simp] theorem State.setPc_pc (s : State) (a : Word) : (s.setPc a).pc = a := rfl
@[simp] theorem State.setPc_ir (s : State) (a : Word) : (s.setPc a).ir = s.ir := rfl
@[simp] theorem State.setPc_stack (s : State) (a : Word) : (s.setPc a).stack = s.stack := rfl
@[simp] theorem State.setPc_dt (s : State) (a : Word) : (s.setPc a).dt = s.dt := rfl
@[simp] theorem State.setPc_st (s : State) (a : Word) : (s.setPc a).st = s.st := rfl
@[simp] theorem State.setPc_toneStop (s : State) (a : Word) : (s.setPc a).toneStop = s.toneStop := rfl
@[simp] theorem State.setPc_mem (s : State) (a : Word) : (s.setPc a).mem = s.mem := rfl
@[simp] theorem State.setPc_disp (s : State) (a : Word) : (s.setPc a).disp = s.disp := rfl
@[simp] theorem State.setPc_dirty (s : State) (a : Word) : (s.setPc a).dirty = s.dirty := rfl
@[simp] theorem State.setPc_keys (s : State) (a : Word) : (s.setPc a).keys = s.keys := rfl
@[simp] theorem State.setPc_faulted (s : State) (a : Word) : (s.setPc a).faulted = s.faulted := rfl
@[simp] theorem State.setPc_faultCode (s : State) (a : Word) : (s.setPc a).faultCode = s.faultCode := rfl
@[simp] theorem State.setPc_faultInfo (s : State) (a : Word) : (s.setPc a).faultInfo = s.faultInfo := rfl
@[simp] theorem State.setPc_draws (s : State) (a : Word) : (s.setPc a).draws = s.draws := rfl
@[simp] theorem State.setPc_cfg (s : State) (a : Word) : (s.setPc a).cfg = s.cfg := rfl
@[simp] theorem State.setPc_getV (s : State) (a : Word) (q : Reg) : (s.setPc a).getV q = s.getV q := rfl
@[simp] theorem State.setPc_byteAt (s : State) (a : Word) (k : Nat) : (s.setPc a).byteAt k = s.byteAt k := rfl
@[simp] theorem State.setPc_cell (s : State) (a : Word) (p' : Fin 32) (q' : Fin 64) : (s.setPc a).cell p' q' = s.cell p' q' := rfl

/-! ### setI -/

@[simp] theorem State.setI_v (s : State) (a : Word) : (s.setI a).v = s.v := rfl
@[simp] theorem State.setI_i (s : State) (a : Word) : (s.setI a).i = a := rfl
@[simp] theorem State.setI_sp (s : State) (a : Word) : (s.setI a).sp = s.sp := rfl
@[simp] theorem State.setI_pc (s : State) (a : Word) : (s.setI a).pc = s.pc := rfl
@[simp] theorem State.setI_ir (s : State) (a : Word) : (s.setI a).ir = s.ir := rfl
@[simp] theorem State.setI_stack (s : State) (a : Word) : (s.setI a).stack = s.stack := rfl
@[simp] theorem State.setI_dt (s : State) (a : Word) : (s.setI a).dt = s.dt := rfl
@[simp] theorem State.setI_st (s : State) (a : Word) : (s.setI a).st = s.st := rfl
@[simp] theorem State.setI_toneStop (s : State) (a : Word) : (s.setI a).toneStop = s.toneStop := rfl
@[simp] theorem State.setI_mem (s : State) (a : Word) : (s.setI a).mem = s.mem := rfl
@[simp] theorem State.setI_disp (s : State) (a : Word) : (s.setI a).disp = s.disp := rfl
@[simp] theorem State.setI_dirty (s : State) (a : Word) : (s.setI a).dirty = s.dirty := rfl
@[simp] theorem State.setI_keys (s : State) (a : Word) : (s.setI a).keys = s.keys := rfl
@[simp] theorem State.setI_faulted (s : State) (a : Word) : (s.setI a).faulted = s.faulted := rfl
@[simp] theorem State.setI_faultCode (s : State) (a : Word) : (s.setI a).faultCode = s.faultCode := rfl
@[simp] theorem State.setI_faultInfo (s : State) (a : Word) : (s.setI a).faultInfo = s.faultInfo := rfl
@[simp] theorem State.setI_draws (s : State) (a : Word) : (s.setI a).draws = s.draws := rfl
@[simp] theorem State.setI_cfg (s : State) (a : Word) : (s.setI a).cfg = s.cfg := rfl
@[simp] theorem State.setI_getV (s : State) (a : Word) (q : Reg) : (s.setI a).getV q = s.getV q := rfl
@[simp] theorem State.setI_byteAt (s : State) (a : Word) (k : Nat) : (s.setI a).byteAt k = s.byteAt k := rfl
@[simp] theorem State.setI_cell (s : State) (a : Word) (p' : Fin 32) (q' : Fin 64) : (s.setI a).cell p' q' = s.cell p' q' := rfl

/-! ### skip -/

@[simp] theorem State.skip_v (s : State) : (s.skip).v = s.v := rfl
@[simp] theorem State.skip_i (s : State) : (s.skip).i = s.i := rfl
@[simp] theorem State.skip_sp (s : State) : (s.skip).sp = s.sp := rfl
@[simp] theorem State.skip_pc (s : State) : (s.skip).pc = s.pc + 2 := rfl
@[simp] theorem State.skip_ir (s : State) : (s.skip).ir = s.ir := rfl
@[simp] theorem State.skip_stack (s : State) : (s.skip).stack = s.stack := rfl
@[simp] theorem State.skip_dt (s : State) : (s.skip).dt = s.dt := rfl
@[simp] theorem State.skip_st (s : State) : (s.skip).st = s.st := rfl
@[simp] theorem State.skip_toneStop (s : State) : (s.skip).toneStop = s.toneStop := rfl
@[simp] theorem State.skip_mem (s : State) : (s.skip).mem = s.mem := rfl
@[simp] theorem State.skip_disp (s : State) : (s.skip).disp = s.disp := rfl
@[simp] theorem State.skip_dirty (s : State) : (s.skip).dirty = s.dirty := rfl
@[simp] theorem State.skip_keys (s : State) : (s.skip).keys = s.keys := rfl
@[simp] theorem State.skip_faulted (s : State) : (s.skip).faulted = s.faulted := rfl
@[simp] theorem State.skip_faultCode (s : State) : (s.skip).faultCode = s.faultCode := rfl
@[simp] theorem State.skip_faultInfo (s : State) : (s.skip).faultInfo = s.faultInfo := rfl
@[simp] theorem State.skip_draws (s : State) : (s.skip).draws = s.draws := rfl
@[simp] theorem State.skip_cfg (s : State) : (s.skip).cfg = s.cfg := rfl
@[simp] theorem State.skip_getV (s : State) (q : Reg) : (s.skip).getV q = s.getV q := rfl
@[simp] theorem State.skip_byteAt (s : State) (k : Nat) : (s.skip).byteAt k = s.byteAt k := rfl
@[simp] theorem State.skip_cell (s : State) (p' : Fin 32) (q' : Fin 64) : (s.skip).cell p' q' = s.cell p' q' := rfl

/-! ### raise -/

@[simp] theorem State.raise_v (s : State) (f : Fault) : (s.raise f).v = s.v := rfl
@[simp] theorem State.raise_i (s : State) (f : Fault) : (s.raise f).i = s.i := rfl
@[simp] theorem State.raise_sp (s : State) (f : Fault) : (s.raise f).sp = s.sp := rfl
@[simp] theorem State.raise_pc (s : State) (f : Fault) : (s.raise f).pc = s.pc := rfl
@[simp] theorem State.raise_ir (s : State) (f : Fault) : (s.raise f).ir = s.ir := rfl
@[simp] theorem State.raise_stack (s : State) (f : Fault) : (s.raise f).stack = s.stack := rfl
@[simp] theorem State.raise_dt (s : State) (f : Fault) : (s.raise f).dt = s.dt := rfl
@[simp] theorem State.raise_st (s : State) (f : Fault) : (s.raise f).st = s.st := rfl
@[simp] theorem State.raise_toneStop (s : State) (f : Fault) : (s.raise f).toneStop = s.toneStop := rfl
@[simp] theorem State.raise_mem (s : State) (f : Fault) : (s.raise f).mem = s.mem := rfl
@[simp] theorem State.raise_disp (s : State) (f : Fault) : (s.raise f).disp = s.disp := rfl
@[simp] theorem State.raise_dirty (s : State) (f : Fault) : (s.raise f).dirty = s.dirty := rfl
@[simp] theorem State.raise_keys (s : State) (f : Fault) : (s.raise f).keys = s.keys := rfl
@[simp] theorem State.raise_faulted (s : State) (f : Fault) : (s.raise f).faulted = true := rfl
@[simp] theorem State.raise_faultCode (s : State) (f : Fault) : (s.raise f).faultCode = f.code := rfl
@[simp] theorem State.raise_faultInfo (s : State) (f : Fault) : (s.raise f).faultInfo = f.info := rfl
@[simp] theorem State.raise_draws (s : State) (f : Fault) : (s.raise f).draws = s.draws := rfl
@[simp] theorem State.raise_cfg (s : State) (f : Fault) : (s.raise f).cfg = s.cfg := rfl
@[simp] theorem State.raise_getV (s : State) (f : Fault) (q : Reg) : (s.raise f).getV q = s.getV q := rfl
@[simp] theorem State.raise_byteAt (s : State) (f : Fault) (k : Nat) : (s.raise f).byteAt k = s.byteAt k := rfl
@[simp] theorem State.raise_cell (s : State) (f : Fault) (p' : Fin 32) (q' : Fin 64) : (s.raise f).cell p' q' = s.cell p' q' := rfl

/-! ### setCell -/

@[simp] theorem State.setCell_v (s : State) (r : Fin 32) (c : Fin 64) (p : Bool) : (s.setCell r c p).v = s.v := rfl
@[simp] theorem State.setCell_i (s : State) (r : Fin 32) (c : Fin 64) (p : Bool) : (s.setCell r c p).i = s.i := rfl
@[simp] theorem State.setCell_sp (s : State) (r : Fin 32) (c : Fin 64) (p : Bool) : (s.setCell r c p).sp = s.sp := rfl
@[simp] theorem State.setCell_pc (s : State) (r : Fin 32) (c : Fin 64) (p : Bool) : (s.setCell r c p).pc = s.pc := rfl
@[simp] theorem State.setCell_ir (s : State) (r : Fin 32) (c : Fin 64) (p : Bool) : (s.setCell r c p).ir = s.ir := rfl
@[simp] theorem State.setCell_stack (s : State) (r : Fin 32) (c : Fin 64) (p : Bool) : (s.setCell r c p).stack = s.stack := rfl
@[simp] theorem State.setCell_dt (s : State) (r : Fin 32) (c : Fin 64) (p : Bool) : (s.setCell r c p).dt = s.dt := rfl
@[simp] theorem State.setCell_st (s : State) (r : Fin 32) (c : Fin 64) (p : Bool) : (s.setCell r c p).st = s.st := rfl
@[simp] theorem State.setCell_toneStop (s : State) (r : Fin 32) (c : Fin 64) (p : Bool) : (s.setCell r c p).toneStop = s.toneStop := rfl
@[simp] theorem State.setCell_mem (s : State) (r : Fin 32) (c : Fin 64) (p : Bool) : (s.setCell r c p).mem = s.mem := rfl
@[simp] theorem State.setCell_disp (s : State) (r : Fin 32) (c : Fin 64) (p : Bool) : (s.setCell r c p).disp = s.disp.set r.val (s.disp[r.val].set c.val p) := rfl
@[simp] theorem State.setCell_dirty (s : State) (r : Fin 32) (c : Fin 64) (p : Bool) : (s.setCell r c p).dirty = s.dirty := rfl
@[simp] theorem State.setCell_keys (s : State) (r : Fin 32) (c : Fin 64) (p : Bool) : (s.setCell r c p).keys = s.keys := rfl
@[simp] theorem State.setCell_faulted (s : State) (r : Fin 32) (c : Fin 64) (p : Bool) : (s.setCell r c p).faulted = s.faulted := rfl
@[simp] theorem State.setCell_faultCode (s : State) (r : Fin 32) (c : Fin 64) (p : Bool) : (s.setCell r c p).faultCode = s.faultCode := rfl
@[simp] theorem State.setCell_faultInfo (s : State) (r : Fin 32) (c : Fin 64) (p : Bool) : (s.setCell r c p).faultInfo = s.faultInfo := rfl
@[simp] theorem State.setCell_draws (s : State) (r : Fin 32) (c : Fin 64) (p : Bool) : (s.setCell r c p).draws = s.draws := rfl
@[simp] theorem State.setCell_cfg (s : State) (r : Fin 32) (c : Fin 64) (p : Bool) : (s.setCell r c p).cfg = s.cfg := rfl
@[simp] theorem State.setCell_getV (s : State) (r : Fin 32) (c : Fin 64) (p : Bool) (q : Reg) : (s.setCell r c p).getV q = s.getV q := rfl
@[simp] theorem State.setCell_byteAt (s : State) (r : Fin 32) (c : Fin 64) (p : Bool) (k : Nat) : (s.setCell r c p).byteAt k = s.byteAt k := rfl

/-! ### clearDisplay -/

@[simp] theorem State.clearDisplay_v (s : State) : (s.clearDisplay).v = s.v := rfl
@[simp] theorem State.clearDisplay_i (s : State) : (s.clearDisplay).i = s.i := rfl
@[simp] theorem State.clearDisplay_sp (s : State) : (s.clearDisplay).sp = s.sp := rfl
@[simp] theorem State.clearDisplay_pc (s : State) : (s.clearDisplay).pc = s.pc := rfl
@[simp] theorem State.clearDisplay_ir (s : State) : (s.clearDisplay).ir = s.ir := rfl
@[simp] theorem State.clearDisplay_stack (s : State) : (s.clearDisplay).stack = s.stack := rfl
@[simp] theorem State.clearDisplay_dt (s : State) : (s.clearDisplay).dt = s.dt := rfl
@[simp] theorem State.clearDisplay_st (s : State) : (s.clearDisplay).st = s.st := rfl
@[simp] theorem State.clearDisplay_toneStop (s : State) : (s.clearDisplay).toneStop = s.toneStop := rfl
@[simp] theorem State.clearDisplay_mem (s : State) : (s.clearDisplay).mem = s.mem := rfl
@[simp] theorem State.clearDisplay_disp (s : State) : (s.clearDisplay).disp = Display.blank := rfl
@[simp] theorem State.clearDisplay_dirty (s : State) : (s.clearDisplay).dirty = true := rfl
@[simp] theorem State.clearDisplay_keys (s : State) : (s.clearDisplay).keys = s.keys := rfl
@[simp] theorem State.clearDisplay_faulted (s : State) : (s.clearDisplay).faulted = s.faulted := rfl
@[simp] theorem State.clearDisplay_faultCode (s : State) : (s.clearDisplay).faultCode = s.faultCode := rfl
@[simp] theorem State.clearDisplay_faultInfo (s : State) : (s.clearDisplay).faultInfo = s.faultInfo := rfl
@[simp] theorem State.clearDisplay_draws (s : State) : (s.clearDisplay).draws = s.draws := rfl
@[simp] theorem State.clearDisplay_cfg (s : State) : (s.clearDisplay).cfg = s.cfg := rfl
@[simp] theorem State.clearDisplay_getV (s : State) (q : Reg) : (s.clearDisplay).getV q = s.getV q := rfl
@[simp] theorem State.clearDisplay_byteAt (s : State) (k : Nat) : (s.clearDisplay).byteAt k = s.byteAt k := rfl

/-! ### beginStep -/

@[simp] theorem State.beginStep_v (s : State) : (s.beginStep).v = s.v := rfl
@[simp] theorem State.beginStep_i (s : State) : (s.beginStep).i = s.i := rfl
@[simp] theorem State.beginStep_sp (s : State) : (s.beginStep).sp = s.sp := rfl
@[simp] theorem State.beginStep_pc (s : State) : (s.beginStep).pc = s.pc := rfl
@[simp] theorem State.beginStep_ir (s : State) : (s.beginStep).ir = s.ir := rfl
@[simp] theorem State.beginStep_stack (s : State) : (s.beginStep).stack = s.stack := rfl
@[simp] theorem State.beginStep_dt (s : State) : (s.beginStep).dt = s.dt := rfl
@[simp] theorem State.beginStep_st (s : State) : (s.beginStep).st = s.st := rfl
@[simp] theorem State.beginStep_toneStop (s : State) : (s.beginStep).toneStop = false := rfl
@[simp] theorem State.beginStep_mem (s : State) : (s.beginStep).mem = s.mem := rfl
@[simp] theorem State.beginStep_disp (s : State) : (s.beginStep).disp = s.disp := rfl
@[simp] theorem State.beginStep_dirty (s : State) : (s.beginStep).dirty = s.dirty := rfl
@[simp] theorem State.beginStep_keys (s : State) : (s.beginStep).keys = s.keys := rfl
@[simp] theorem State.beginStep_faulted (s : State) : (s.beginStep).faulted = s.faulted := rfl
@[simp] theorem State.beginStep_faultCode (s : State) : (s.beginStep).faultCode = s.faultCode := rfl
@[simp] theorem State.beginStep_faultInfo (s : State) : (s.beginStep).faultInfo = s.faultInfo := rfl
@[simp] theorem State.beginStep_draws (s : State) : (s.beginStep).draws = s.draws := rfl
@[simp] theorem State.beginStep_cfg (s : State) : (s.beginStep).cfg = s.cfg := rfl
@[simp] theorem State.beginStep_getV (s : State) (q : Reg) : (s.beginStep).getV q = s.getV q := rfl
@[simp] theorem State.beginStep_byteAt (s : State) (k : Nat) : (s.beginStep).byteAt k = s.byteAt k := rfl
@[simp] theorem State.beginStep_cell (s : State) (p' : Fin 32) (q' : Fin 64) : (s.beginStep).cell p' q' = s.cell p' q' := rfl

/-! ### advance -/

@[simp] theorem State.advance_v (s : State) (w : Word) : (s.advance w).v = s.v := rfl
@[simp] theorem State.advance_i (s : State) (w : Word) : (s.advance w).i = s.i := rfl
@[simp] theorem State.advance_sp (s : State) (w : Word) : (s.advance w).sp = s.sp := rfl
@[simp] theorem State.advance_pc (s : State) (w : Word) : (s.advance w).pc = s.pc + 2 := rfl
@[simp] theorem State.advance_ir (s : State) (w : Word) : (s.advance w).ir = w := rfl
@[simp] theorem State.advance_stack (s : State) (w : Word) : (s.advance w).stack = s.stack := rfl
@[simp] theorem State.advance_dt (s : State) (w : Word) : (s.advance w).dt = s.dt := rfl
@[simp] theorem State.advance_st (s : State) (w : Word) : (s.advance w).st = s.st := rfl
@[simp] theorem State.advance_toneStop (s : State) (w : Word) : (s.advance w).toneStop = s.toneStop := rfl
@[simp] theorem State.advance_mem (s : State) (w : Word) : (s.advance w).mem = s.mem := rfl
@[simp] theorem State.advance_disp (s : State) (w : Word) : (s.advance w).disp = s.disp := rfl
@[simp] theorem State.advance_dirty (s : State) (w : Word) : (s.advance w).dirty = s.dirty := rfl
@[simp] theorem State.advance_keys (s : State) (w : Word) : (s.advance w).keys = s.keys := rfl
@[simp] theorem State.advance_faulted (s : State) (w : Word) : (s.advance w).faulted = s.faulted := rfl
@[simp] theorem State.advance_faultCode (s : State) (w : Word) : (s.advance w).faultCode = s.faultCode := rfl
@[simp] theorem State.advance_faultInfo (s : State) (w : Word) : (s.advance w).faultInfo = s.faultInfo := rfl
@[simp] theorem State.advance_draws (s : State) (w : Word) : (s.advance w).draws = s.draws := rfl
@[simp] theorem State.advance_cfg (s : State) (w : Word) : (s.advance w).cfg = s.cfg := rfl
@[simp] theorem State.advance_getV (s : State) (w : Word) (q : Reg) : (s.advance w).getV q = s.getV q := rfl
@[simp] theorem State.advance_byteAt (s : State) (w : Word) (k : Nat) : (s.advance w).byteAt k = s.byteAt k := rfl
@[simp] theorem State.advance_cell (s : State) (w : Word) (p' : Fin 32) (q' : Fin 64) : (s.advance w).cell p' q' = s.cell p' q' := rfl

/-! ### tick -/

@[simp] theorem State.tick_v (s : State) : (s.tick).v = s.v := rfl
@[simp] theorem State.tick_i (s : State) : (s.tick).i = s.i := rfl
@[simp] theorem State.tick_sp (s : State) : (s.tick).sp = s.sp := rfl
@[simp] theorem State.tick_pc (s : State) : (s.tick).pc = s.pc := rfl
@[simp] theorem State.tick_ir (s : State) : (s.tick).ir = s.ir := rfl
@[simp] theorem State.tick_stack (s : State) : (s.tick).stack = s.stack := rfl
@[simp] theorem State.tick_dt (s : State) : (s.tick).dt = countDown s.dt := rfl
@[simp] theorem State.tick_st (s : State) : (s.tick).st = countDown s.st := rfl
@[simp] theorem State.tick_toneStop (s : State) : (s.tick).toneStop = decide (s.st = 1) := rfl
@[simp] theorem State.tick_mem (s : State) : (s.tick).mem = s.mem := rfl
@[simp] theorem State.tick_disp (s : State) : (s.tick).disp = s.disp := rfl
@[simp] theorem State.tick_dirty (s : State) : (s.tick).dirty = s.dirty := rfl
@[simp] theorem State.tick_keys (s : State) : (s.tick).keys = s.keys := rfl
@[simp] theorem State.tick_faulted (s : State) : (s.tick).faulted = s.faulted := rfl
@[simp] theorem State.tick_faultCode (s : State) : (s.tick).faultCode = s.faultCode := rfl
@[simp] theorem State.tick_faultInfo (s : State) : (s.tick).faultInfo = s.faultInfo := rfl
@[simp] theorem State.tick_draws (s : State) : (s.tick).draws = s.draws := rfl
@[simp] theorem State.tick_cfg (s : State) : (s.tick).cfg = s.cfg := rfl
@[simp] theorem State.tick_getV (s : State) (q : Reg) : (s.tick).getV q = s.getV q := rfl
@[simp] theorem State.tick_byteAt (s : State) (k : Nat) : (s.tick).byteAt k = s.byteAt k := rfl
@[simp] theorem State.tick_cell (s : State) (p' : Fin 32) (q' : Fin 64) : (s.tick).cell p' q' = s.cell p' q' := rfl

/-! ### ackDirty -/

@[simp] theorem State.ackDirty_v (s : State) : (s.ackDirty).v = s.v := rfl
@[simp] theorem State.ackDirty_i (s : State) : (s.ackDirty).i = s.i := rfl
@[simp] theorem State.ackDirty_sp (s : State) : (s.ackDirty).sp = s.sp := rfl
@[simp] theorem State.ackDirty_pc (s : State) : (s.ackDirty).pc = s.pc := rfl
@[simp] theorem State.ackDirty_ir (s : State) : (s.ackDirty).ir = s.ir := rfl
@[simp] theorem State.ackDirty_stack (s : State) : (s.ackDirty).stack = s.stack := rfl
@[simp] theorem State.ackDirty_dt (s : State) : (s.ackDirty).dt = s.dt := rfl
@[simp] theorem State.ackDirty_st (s : State) : (s.ackDirty).st = s.st := rfl
@[simp] theorem State.ackDirty_toneStop (s : State) : (s.ackDirty).toneStop = s.toneStop := rfl
@[simp] theorem State.ackDirty_mem (s : State) : (s.ackDirty).mem = s.mem := rfl
@[simp] theorem State.ackDirty_disp (s : State) : (s.ackDirty).disp = s.disp := rfl
@[simp] theorem State.ackDirty_dirty (s : State) : (s.ackDirty).dirty = false := rfl
@[simp] theorem State.ackDirty_keys (s : State) : (s.ackDirty).keys = s.keys := rfl
@[simp] theorem State.ackDirty_faulted (s : State) : (s.ackDirty).faulted = s.faulted := rfl
@[simp] theorem State.ackDirty_faultCode (s : State) : (s.ackDirty).faultCode = s.faultCode := rfl
@[simp] theorem State.ackDirty_faultInfo (s : State) : (s.ackDirty).faultInfo = s.faultInfo := rfl
@[simp] theorem State.ackDirty_draws (s : State) : (s.ackDirty).draws = s.draws := rfl
@[simp] theorem State.ackDirty_cfg (s : State) : (s.ackDirty).cfg = s.cfg := rfl
@[simp] theorem State.ackDirty_getV (s : State) (q : Reg) : (s.ackDirty).getV q = s.getV q := rfl
@[simp] theorem State.ackDirty_byteAt (s : State) (k : Nat) : (s.ackDirty).byteAt k = s.byteAt k := rfl
@[simp] theorem State.ackDirty_cell (s : State) (p' : Fin 32) (q' : Fin 64) : (s.ackDirty).cell p' q' = s.cell p' q' := rfl

/-! ### softReset -/

@[simp] theorem State.softReset_v (s : State) : (s.softReset).v = Vector.replicate 16 0 := rfl
@[simp] theorem State.softReset_i (s : State) : (s.softReset).i = 0 := rfl
@[simp] theorem State.softReset_sp (s : State) : (s.softReset).sp = 0 := rfl
@[simp] theorem State.softReset_pc (s : State) : (s.softReset).pc = Config.programStart := rfl
@[simp] theorem State.softReset_ir (s : State) : (s.softReset).ir = 0 := rfl
@[simp] theorem State.softReset_stack (s : State) : (s.softReset).stack = [] := rfl
@[simp] theorem State.softReset_dt (s : State) : (s.softReset).dt = 0 := rfl
@[simp] theorem State.softReset_st (s : State) : (s.softReset).st = 0 := rfl
@[simp] theorem State.softReset_toneStop (s : State) : (s.softReset).toneStop = false := rfl
@[simp] theorem State.softReset_mem (s : State) : (s.softReset).mem = s.mem := rfl
@[simp] theorem State.softReset_disp (s : State) : (s.softReset).disp = Display.blank := rfl
@[simp] theorem State.softReset_dirty (s : State) : (s.softReset).dirty = true := rfl
@[simp] theorem State.softReset_keys (s : State) : (s.softReset).keys = s.keys := rfl
@[simp] theorem State.softReset_faulted (s : State) : (s.softReset).faulted = false := rfl
@[simp] theorem State.softReset_faultCode (s : State) : (s.softReset).faultCode = 0 := rfl
@[simp] theorem State.softReset_faultInfo (s : State) : (s.softReset).faultInfo = 0 := rfl
@[simp] theorem State.softReset_draws (s : State) : (s.softReset).draws = s.draws := rfl
@[simp] theorem State.softReset_cfg (s : State) : (s.softReset).cfg = s.cfg := rfl
@[simp] theorem State.softReset_byteAt (s : State) (k : Nat) : (s.softReset).byteAt k = s.byteAt k := rfl

/-! ### Reading back what an update wrote -/

theorem State.setV_getV (s : State) (r q : Reg) (b : Byte) :
    (s.setV r b).getV q = if r = q then b else s.getV q := by
  simp [State.getV, State.setV, Vector.getElem_set, Fin.ext_iff]

@[simp] theorem State.setV_getV_same (s : State) (r : Reg) (b : Byte) : (s.setV r b).getV r = b := by
  simp [State.setV_getV]

theorem State.setV_getV_other (s : State) {r q : Reg} (b : Byte) (h : r ≠ q) : (s.setV r b).getV q = s.getV q := by
  simp [State.setV_getV, h]

theorem State.setCell_cell (s : State) (r p : Fin 32) (c q : Fin 64) (b : Bool) :
    (s.setCell r c b).cell p q = if r = p ∧ c = q then b else s.cell p q := by
  simp only [State.cell, State.setCell, Vector.getElem_set, Fin.ext_iff]
  by_cases hr : r.val = p.val <;> by_cases hc : c.val = q.val <;> simp [hr, hc]

/-- Two register files that read alike are one. -/
theorem State.v_ext {s t : State} (h : ∀ r, s.getV r = t.getV r) : s.v = t.v := by
  apply Vector.ext
  intro k hk
  exact h ⟨k, hk⟩

/-- Two displays that read alike are one. -/
theorem State.disp_ext {s t : State} (h : ∀ r c, s.cell r c = t.cell r c) : s.disp = t.disp := by
  apply Vector.ext
  intro k hk
  apply Vector.ext
  intro l hl
  exact h ⟨k, hk⟩ ⟨l, hl⟩

/-- A register set to what it holds. -/
theorem State.setV_same (s : State) (r : Reg) : s.setV r (s.getV r) = s := by
  simp [State.setV, State.getV]

@[simp] theorem Display.blank_read (r : Fin 32) (c : Fin 64) : Display.blank[r.val][c.val] = false := by
  simp [Display.blank]

end Sys2Proof.Machine
end

