-- ==== Sys2Proof/Laws/Ops.lean ====
section
/-! SUPPORT. One law for each shared operation: everything it can do. -/

namespace Sys2Proof.Machine

/-! ### The bus -/

theorem State.memRead_ok {s : State} {a : Nat} (h : a < s.cfg.memSize) : s.memRead a = .ok (s.byteAt a) := by
  simp [State.memRead, h]

theorem State.memRead_error {s : State} {a : Nat} (h : s.cfg.memSize ≤ a) :
    s.memRead a = .error (.addressOutOfRange a) := by
  simp [State.memRead, Nat.not_lt.mpr h]

theorem State.memWrite_ok {s : State} {a : Nat} (b : Byte) (h : a < s.cfg.memSize) :
    s.memWrite a b = .ok { s with mem := Memory.write s.cfg s.mem a b } := by
  simp [State.memWrite, h]

theorem State.memWrite_error {s : State} {a : Nat} (b : Byte) (h : s.cfg.memSize ≤ a) :
    s.memWrite a b = .error (.addressOutOfRange a) := by
  simp [State.memWrite, Nat.not_lt.mpr h]

/-- How many bytes from address `a` upward exist. -/
def State.room (s : State) (a : Nat) : Nat := s.cfg.memSize - a

/-- A run of stores stores everything, or what fits and then raises at the first address out of range. -/
theorem State.storeBytes_eq (s : State) (a : Nat) (bs : List Byte) :
    s.storeBytes a bs =
      if bs.length ≤ s.room a then { s with mem := Memory.writeAll s.cfg s.mem a bs }
      else ({ s with mem := Memory.writeAll s.cfg s.mem a (bs.take (s.room a)) } : State).raise
        (.addressOutOfRange (a + s.room a)) := by
  induction bs generalizing s a with
  | nil => simp [State.storeBytes, Memory.writeAll]
  | cons b bs ih =>
    by_cases ha : a < s.cfg.memSize
    · simp only [State.storeBytes, State.memWrite_ok b ha, ih, State.room, List.length_cons]
      obtain ⟨j, hj⟩ : ∃ j, s.cfg.memSize - a = j + 1 := ⟨s.cfg.memSize - a - 1, by omega⟩
      have h1 : s.cfg.memSize - (a + 1) = j := by omega
      have h2 : a + 1 + j = a + (j + 1) := by omega
      simp only [h1, hj, h2, Nat.add_le_add_iff_right, List.take_succ_cons, Memory.writeAll]
    · have h0 : s.cfg.memSize - a = 0 := by omega
      simp [State.storeBytes, State.memWrite_error b (Nat.not_lt.mp ha), State.room, h0, Memory.writeAll]

/-- Registers set from memory without the range check. -/
def State.loadAll (s : State) (a : Nat) : List Reg → State
  | [] => s
  | r :: rs => (s.setV r (s.byteAt a)).loadAll (a + 1) rs

/-- A run of loads loads everything, or what exists and then raises at the first address out of range. -/
theorem State.loadRegs_eq (s : State) (a : Nat) (rs : List Reg) :
    s.loadRegs a rs =
      if rs.length ≤ s.room a then s.loadAll a rs
      else (s.loadAll a (rs.take (s.room a))).raise (.addressOutOfRange (a + s.room a)) := by
  induction rs generalizing s a with
  | nil => simp [State.loadRegs, State.loadAll]
  | cons r rs ih =>
    by_cases ha : a < s.cfg.memSize
    · simp only [State.loadRegs, State.memRead_ok ha, ih, State.room, List.length_cons, State.setV_cfg]
      obtain ⟨j, hj⟩ : ∃ j, s.cfg.memSize - a = j + 1 := ⟨s.cfg.memSize - a - 1, by omega⟩
      have h1 : s.cfg.memSize - (a + 1) = j := by omega
      have h2 : a + 1 + j = a + (j + 1) := by omega
      simp only [h1, hj, h2, Nat.add_le_add_iff_right, List.take_succ_cons, State.loadAll]
    · have h0 : s.cfg.memSize - a = 0 := by omega
      simp [State.loadRegs, State.memRead_error (Nat.not_lt.mp ha), State.room, h0, State.loadAll]

/-- Loads change registers and nothing else. -/
theorem State.loadAll_rest (s : State) (a : Nat) (rs : List Reg) : s.loadAll a rs = { s with v := (s.loadAll a rs).v } := by
  induction rs generalizing s a with
  | nil => rfl
  | cons r rs ih => simpa [State.loadAll, State.setV] using ih (s.setV r (s.byteAt a)) (a + 1)

@[simp] theorem State.loadAll_byteAt (s : State) (a : Nat) (rs : List Reg) (k : Nat) :
    (s.loadAll a rs).byteAt k = s.byteAt k := by
  rw [State.loadAll_rest]; rfl

/-- The registers of a run in ascending order get the bytes of ascending addresses. -/
theorem State.loadAll_getV (s : State) (a o : Nat) (rs : List Reg) (q : Reg)
    (h : ∀ j (hj : j < rs.length), (rs[j]).val = o + j) :
    (s.loadAll a rs).getV q =
      if o ≤ q.val ∧ q.val < o + rs.length then s.byteAt (a + (q.val - o)) else s.getV q := by
  induction rs generalizing s a o with
  | nil => simp [State.loadAll]
  | cons r rs ih =>
    have hr : r.val = o := h 0 (by simp)
    have ht : ∀ j (hj : j < rs.length), (rs[j]).val = (o + 1) + j := by
      intro j hj
      have := h (j + 1) (by simpa using hj)
      simp only [List.getElem_cons_succ] at this
      omega
    rw [State.loadAll, ih _ _ (o + 1) ht]
    simp only [State.setV_byteAt, State.setV_getV, List.length_cons, Fin.ext_iff, hr]
    by_cases hq : o = q.val
    · rw [if_neg (by omega), if_pos hq, if_pos (by omega)]
      congr 1; omega
    · by_cases hin : o + 1 ≤ q.val ∧ q.val < o + 1 + rs.length
      · rw [if_pos hin, if_pos (by omega)]
        congr 1; omega
      · rw [if_neg hin, if_neg hq, if_neg (by omega)]

theorem allRegs_take_length (n : Nat) : (allRegs.take n).length = min n 16 := by
  simp [allRegs]

theorem allRegs_take_getElem (n j : Nat) (hj : j < (allRegs.take n).length) : ((allRegs.take n)[j]).val = 0 + j := by
  rw [List.getElem_take]
  have hj' : j < 16 := by rw [allRegs_take_length] at hj; omega
  have key : ∀ k : Fin 16, (allRegs[k.val]'(by have := k.isLt; simp [allRegs])).val = k.val := by decide
  simpa using key ⟨j, hj'⟩

theorem regsThrough_length (x : Reg) : (regsThrough x).length = x.val + 1 := by
  rw [regsThrough, allRegs_take_length]; omega

/-- The register at place `r` of a run is `r`. -/
theorem regsThrough_getElem (x r : Reg) (hr : r.val < (regsThrough x).length) : (regsThrough x)[r.val] = r :=
  Fin.ext ((allRegs_take_getElem (x.val + 1) r.val hr).trans (Nat.zero_add _))

/-- V0 through Vx loaded from `a` upward. -/
theorem State.loadAll_regs_getV (s : State) (a n : Nat) (q : Reg) :
    (s.loadAll a (allRegs.take n)).getV q = if q.val < n then s.byteAt (a + q.val) else s.getV q := by
  rw [State.loadAll_getV s a 0 _ q (allRegs_take_getElem n), allRegs_take_length]
  by_cases h : q.val < n
  · rw [if_pos h, if_pos (by omega)]; simp
  · rw [if_neg h, if_neg (by omega)]

/-- Reading a run of bytes gives them all, or the first address out of range. -/
theorem State.readBytes_eq (s : State) (a n : Nat) :
    s.readBytes a n =
      if n ≤ s.room a then .ok ((List.range' a n).map s.byteAt) else .error (.addressOutOfRange (a + s.room a)) := by
  induction n generalizing a with
  | zero => simp [State.readBytes]
  | succ n ih =>
    by_cases ha : a < s.cfg.memSize
    · obtain ⟨j, hj⟩ : ∃ j, s.cfg.memSize - a = j + 1 := ⟨s.cfg.memSize - a - 1, by omega⟩
      have h1 : s.cfg.memSize - (a + 1) = j := by omega
      have h2 : a + 1 + j = a + (j + 1) := by omega
      simp only [State.readBytes, State.memRead_ok ha, ih, State.room, h1, hj, h2, Nat.add_le_add_iff_right]
      by_cases hn : n ≤ j <;> simp [hn, List.range'_succ]
    · have h0 : s.cfg.memSize - a = 0 := by omega
      simp [State.readBytes, State.memRead_error (Nat.not_lt.mp ha), State.room, h0]

/-! ### The call stack -/

theorem State.push_eq (s : State) (a : Word) :
    s.push a = if s.stack.length < s.cfg.stackLimit then .ok { s with stack := a :: s.stack } else .error .stackOverflow :=
  rfl

theorem State.pop_nil {s : State} (h : s.stack = []) : s.pop = .error .stackUnderflow := by
  simp [State.pop, h]

theorem State.pop_cons {s : State} {a : Word} {rest : List Word} (h : s.stack = a :: rest) :
    s.pop = .ok (a, { s with stack := rest }) := by
  simp [State.pop, h]

/-! ### Registers -/

/-- Flag first, result second: what each register ends as (42_load_alu.md R173). -/
theorem State.setFlagThenResult_getV (s : State) (x q : Reg) (f : Bool) (b : Byte) :
    (s.setFlagThenResult x f b).getV q = if x = q then b else if regVF = q then flagByte f else s.getV q := by
  simp only [State.setFlagThenResult, State.setV_getV]

theorem State.setFlagThenResult_rest (s : State) (x : Reg) (f : Bool) (b : Byte) :
    s.setFlagThenResult x f b = { s with v := (s.setFlagThenResult x f b).v } := rfl

theorem State.skipIf_eq (s : State) (c : Bool) : s.skipIf c = s.setPc (if c then s.pc + 2 else s.pc) := by
  cases c <;> rfl

/-! ### Keys -/

theorem lowestKey_eq_some {keys : BitVec 16} {k : Nat} :
    lowestKey keys = some k ↔ k < 16 ∧ keys.getLsbD k = true ∧ ∀ j < k, keys.getLsbD j = false := by
  simp only [lowestKey, List.find?_range_eq_some, keyPressed, Bool.and_eq_true, decide_eq_true_eq]
  constructor
  · rintro ⟨⟨h1, h2⟩, -, h3⟩
    refine ⟨h1, h2, fun j hj => ?_⟩
    have := h3 j hj
    simpa [show j < 16 by omega] using this
  · rintro ⟨h1, h2, h3⟩
    exact ⟨⟨h1, h2⟩, List.mem_range.mpr h1, fun j hj => by simp [h3 j hj]⟩

theorem lowestKey_eq_none {keys : BitVec 16} : lowestKey keys = none ↔ keys = 0 := by
  simp only [lowestKey, List.find?_eq_none, List.mem_range, keyPressed]
  constructor
  · intro h
    apply BitVec.eq_of_getLsbD_eq
    intro j hj
    simpa [hj] using h j hj
  · rintro rfl j hj
    simp

end Sys2Proof.Machine
end

