-- ==== Sys2Proof/Laws/Display.lean ====
section
/-! SUPPORT. What drawing does: the cells are XORed with the sprite's pixels, VF is set if one is erased, nothing else
changes. -/

namespace Sys2Proof.Machine

/-- `t` is `s` with the pixels `p` drawn on it. -/
structure Draws (p : Fin 32 → Fin 64 → Bool) (s t : State) : Prop where
  cell : ∀ r c, t.cell r c = (s.cell r c ^^ p r c)
  vf_set : (∃ r c, p r c = true ∧ s.cell r c = true) → t.getV regVF = 1
  vf_kept : (¬∃ r c, p r c = true ∧ s.cell r c = true) → t.getV regVF = s.getV regVF
  rest : t = { s with v := s.v.set 15 (t.getV regVF), disp := t.disp }

theorem Draws.refl (s : State) : Draws (fun _ _ => false) s s where
  cell _ _ := by simp
  vf_set h := by simp at h
  vf_kept _ := rfl
  rest := by simp [State.getV]

theorem Draws.congr {p q : Fin 32 → Fin 64 → Bool} {s t : State} (h : Draws p s t) (e : ∀ r c, p r c = q r c) :
    Draws q s t := by
  have : p = q := funext fun r => funext fun c => e r c
  exact this ▸ h

theorem Draws.trans {p q : Fin 32 → Fin 64 → Bool} {s t u : State} (h : Draws p s t) (k : Draws q t u)
    (disjoint : ∀ r c, p r c = true → q r c = false) : Draws (fun r c => p r c || q r c) s u where
  cell r c := by
    rw [k.cell, h.cell]
    have := disjoint r c
    revert this
    cases p r c <;> cases q r c <;> simp
  vf_set := by
    rintro ⟨r, c, hp, hs⟩
    by_cases hq : ∃ r c, q r c = true ∧ t.cell r c = true
    · exact k.vf_set hq
    · rw [k.vf_kept hq]
      apply h.vf_set
      rcases Bool.or_eq_true_iff.mp hp with hp | hp
      · exact ⟨r, c, hp, hs⟩
      · refine absurd ⟨r, c, hp, ?_⟩ hq
        have : p r c = false := by
          cases hpr : p r c
          · rfl
          · exact absurd (disjoint r c hpr) (by simp [hp])
        rw [h.cell, this, hs]; rfl
  vf_kept hn := by
    have hq : ¬∃ r c, q r c = true ∧ t.cell r c = true := by
      rintro ⟨r, c, hq, ht⟩
      have hp : p r c = false := by
        cases hpr : p r c
        · rfl
        · exact absurd (disjoint r c hpr) (by simp [hq])
      rw [h.cell, hp, Bool.xor_false] at ht
      exact hn ⟨r, c, by simp [hq], ht⟩
    have hp : ¬∃ r c, p r c = true ∧ s.cell r c = true := by
      rintro ⟨r, c, hp, hs⟩
      exact hn ⟨r, c, by simp [hp], hs⟩
    rw [k.vf_kept hq, h.vf_kept hp]
  rest := by
    have hk := k.rest
    rw [h.rest] at hk
    simpa using hk

/-- One pixel: the cell it falls on, if it is on the screen (44_display.md R212, R213). -/
theorem drawPixel_draws (vx vy row bit : Nat) (b : Bool) (s : State) :
    Draws (fun r c => decide (r.val = vy + row ∧ c.val = vx + bit) && b) s (drawPixel vx vy row bit b s) := by
  unfold drawPixel
  by_cases h : vy + row < 32 ∧ vx + bit < 64
  · simp only [dif_pos h]
    have at_iff : ∀ (r : Fin 32) (c : Fin 64), ((⟨vy + row, h.1⟩ : Fin 32) = r ∧ (⟨vx + bit, h.2⟩ : Fin 64) = c) ↔
        (r.val = vy + row ∧ c.val = vx + bit) := by
      intro r c
      simp only [Fin.ext_iff]
      omega
    constructor
    · intro r c
      rw [State.setCell_cell]
      by_cases hrc : r.val = vy + row ∧ c.val = vx + bit
      · have := (at_iff r c).mpr hrc
        rw [if_pos this]
        obtain ⟨rfl, rfl⟩ := this
        simp
      · rw [if_neg (mt (at_iff r c).mp hrc)]
        split <;> simp [hrc]
    · rintro ⟨r, c, hp, hs⟩
      simp only [Bool.and_eq_true, decide_eq_true_eq] at hp
      obtain ⟨rfl, rfl⟩ := (at_iff r c).mpr hp.1
      simp [hp.2, hs]
    · intro hn
      have : (b && s.cell ⟨vy + row, h.1⟩ ⟨vx + bit, h.2⟩) = false := by
        cases hb : b <;> cases hc : s.cell ⟨vy + row, h.1⟩ ⟨vx + bit, h.2⟩ <;> simp
        exact hn ⟨_, _, by simp [hb], hc⟩
      simp [this]
    · split <;> simp [State.setCell, State.setV, State.getV]
  · simp only [dif_neg h]
    apply (Draws.refl s).congr
    intro r c
    have := r.isLt; have := c.isLt
    rw [decide_eq_false (by omega), Bool.false_and]

/-- A run of pixels of one row. -/
theorem drawBits_draws (vx vy row : Nat) (b : Byte) (bit k : Nat) (s : State) :
    Draws (fun r c => decide (r.val = vy + row ∧ vx + bit ≤ c.val ∧ c.val < vx + bit + k) &&
      b.getLsbD (7 - (c.val - vx))) s (drawBits vx vy row b bit k s) := by
  induction k generalizing bit s with
  | zero =>
    apply (Draws.refl s).congr
    intro r c
    rw [decide_eq_false (by omega), Bool.false_and]
  | succ k ih =>
    rw [drawBits]
    refine ((drawPixel_draws vx vy row bit _ s).trans (ih (bit + 1) _) ?_).congr ?_
    · intro r c hp
      simp only [Bool.and_eq_true, decide_eq_true_eq] at hp
      rw [decide_eq_false (by omega), Bool.false_and]
    · intro r c
      by_cases h1 : r.val = vy + row ∧ c.val = vx + bit
      · rw [decide_eq_true h1, decide_eq_false (by omega), decide_eq_true (by omega), h1.2]
        simp
      · by_cases h2 : r.val = vy + row ∧ vx + (bit + 1) ≤ c.val ∧ c.val < vx + (bit + 1) + k
        · rw [decide_eq_false h1, decide_eq_true h2, decide_eq_true (by omega)]; simp
        · rw [decide_eq_false h1, decide_eq_false h2, decide_eq_false (by omega)]; simp

/-- All the rows of a sprite from row `row` on. -/
theorem drawRows_draws (vx vy row : Nat) (bs : List Byte) (s : State) :
    Draws (fun r c => decide (vy + row ≤ r.val ∧ r.val < vy + row + bs.length ∧ vx ≤ c.val ∧ c.val < vx + 8) &&
      (bs.getD (r.val - vy - row) 0).getLsbD (7 - (c.val - vx))) s (drawRows vx vy row bs s) := by
  induction bs generalizing row s with
  | nil =>
    apply (Draws.refl s).congr
    intro r c
    rw [decide_eq_false (by simp; omega), Bool.false_and]
  | cons b bs ih =>
    rw [drawRows]
    refine ((drawBits_draws vx vy row b 0 8 s).trans (ih (row + 1) _) ?_).congr ?_
    · intro r c hp
      simp only [Bool.and_eq_true, decide_eq_true_eq] at hp
      rw [decide_eq_false (by omega), Bool.false_and]
    · intro r c
      simp only [List.length_cons]
      by_cases h1 : r.val = vy + row ∧ vx + 0 ≤ c.val ∧ c.val < vx + 0 + 8
      · have : r.val - vy - row = 0 := by omega
        rw [decide_eq_true h1, decide_eq_false (by omega), decide_eq_true (by omega), this]
        simp
      · by_cases h2 : vy + (row + 1) ≤ r.val ∧ r.val < vy + (row + 1) + bs.length ∧ vx ≤ c.val ∧ c.val < vx + 8
        · obtain ⟨j, hj⟩ : ∃ j, r.val - vy - row = j + 1 := ⟨r.val - vy - row - 1, by omega⟩
          have : r.val - vy - (row + 1) = j := by omega
          rw [decide_eq_false h1, decide_eq_true h2, decide_eq_true (by omega), this, hj]
          simp
        · rw [decide_eq_false h1, decide_eq_false h2, decide_eq_false (by omega)]; simp

/-- A whole sprite whose bytes are read from address `a` upward. -/
theorem drawSprite_draws (vx vy a n : Nat) (s t : State) :
    Draws (spritePixel vx vy n (fun j => s.byteAt (a + j))) t
      (drawRows vx vy 0 ((List.range' a n).map s.byteAt) t) := by
  refine (drawRows_draws vx vy 0 _ t).congr fun r c => ?_
  simp only [spritePixel, List.length_map, List.length_range', Nat.add_zero, Nat.sub_zero]
  by_cases h : vy ≤ r.val ∧ r.val < vy + n ∧ vx ≤ c.val ∧ c.val < vx + 8
  · have hj : r.val - vy < n := by omega
    simp [h, List.getD_eq_getElem?_getD, hj]
  · simp [h]

end Sys2Proof.Machine
end

