-- ==== Sys2Proof/Laws/Step.lean ====
section
/-! SUPPORT. What a step can do, said once (40_step_cycle.md R120 to R130). -/

namespace Sys2Proof.Machine

@[simp] theorem complete_next (t : State) : complete (.next t) = .next (if t.faulted then t else t.tick) := rfl

theorem State.prepare_halted {s : State} (h : s.faulted = true) : s.prepare = .ended s := by
  simp [State.prepare, h]

theorem State.prepare_fetch_fault {s : State} {f : Fault} (h : s.faulted = false) (hf : s.beginStep.fetch = .error f) :
    s.prepare = .ended (s.beginStep.raise f) := by
  simp [State.prepare, h, hf]

theorem State.prepare_illegal {s : State} {w : Word} {e : DecodeReject} (h : s.faulted = false)
    (hf : s.beginStep.fetch = .ok w) (hd : decode w = .error e) :
    s.prepare = .ended ((s.beginStep.advance w).raise (.unknownOpcode w)) := by
  simp [State.prepare, h, hf, hd]

theorem State.prepare_legal {s : State} {w : Word} {i : Instr} (h : s.faulted = false)
    (hf : s.beginStep.fetch = .ok w) (hd : decode w = .ok i) : s.prepare = .ready i (s.beginStep.advance w) := by
  simp [State.prepare, h, hf, hd]

/-- Fetching looks at PC, memory and the parameters alone. -/
@[simp] theorem State.fetch_beginStep (s : State) : s.beginStep.fetch = s.fetch := rfl

/-- What fetching does: both addresses exist, or the first that does not is raised (40_step_cycle.md R121). -/
theorem State.fetch_eq (s : State) :
    s.fetch =
      if s.pc.toNat + 1 < s.cfg.memSize then .ok (wordOfBytes (s.byteAt s.pc.toNat) (s.byteAt (s.pc.toNat + 1)))
      else if s.pc.toNat < s.cfg.memSize then .error (.addressOutOfRange (s.pc.toNat + 1))
      else .error (.addressOutOfRange s.pc.toNat) := by
  unfold State.fetch
  by_cases h0 : s.pc.toNat < s.cfg.memSize
  · rw [State.memRead_ok h0]
    by_cases h1 : s.pc.toNat + 1 < s.cfg.memSize
    · rw [State.memRead_ok h1, if_pos h1]
    · rw [State.memRead_error (Nat.not_lt.mp h1), if_neg h1, if_pos h0]
  · rw [State.memRead_error (Nat.not_lt.mp h0), if_neg (by omega), if_neg h0]

/-- Everything a step can be: the halted core, a fault of the fetch, an illegal word, or an instruction executed. -/
theorem step_cases (s : State) :
    (s.faulted = true ∧ step s = .next s) ∨
    (s.faulted = false ∧ ∃ f, s.fetch = .error f ∧ step s = .next (s.beginStep.raise f)) ∨
    (s.faulted = false ∧ ∃ w e, s.fetch = .ok w ∧ decode w = .error e ∧
      step s = .next ((s.beginStep.advance w).raise (.unknownOpcode w))) ∨
    (s.faulted = false ∧ ∃ w i, s.fetch = .ok w ∧ decode w = .ok i ∧
      step s = complete (exec i (s.beginStep.advance w))) := by
  cases hh : s.faulted with
  | true => exact .inl ⟨rfl, by simp [step, State.prepare_halted hh]⟩
  | false =>
    refine .inr ?_
    cases hf : s.fetch with
    | error f => exact .inl ⟨rfl, f, rfl, by simp [step, State.prepare_fetch_fault hh hf]⟩
    | ok w =>
      refine .inr ?_
      cases hd : decode w with
      | error e => exact .inl ⟨rfl, w, e, rfl, hd, by simp [step, State.prepare_illegal hh hf hd]⟩
      | ok i => exact .inr ⟨rfl, w, i, rfl, hd, by simp [step, State.prepare_legal hh hf hd]⟩

end Sys2Proof.Machine
end

