-- ==== Sys2Proof/Laws/Exec.lean ====
section
/-! SUPPORT. What the block transfers do to each byte and each register, and what an update of registers alone leaves. -/

namespace Sys2Proof.Machine

/-! ### Registers alone -/

theorem State.setV_onlyRegisters (s : State) (x : Reg) (b : Byte) : OnlyRegisters [x] s (s.setV x b) where
  regs _ hr := State.setV_getV_other s b (fun h => hr (List.mem_singleton.mpr h.symm))
  memory _ := rfl
  rest := rfl

theorem State.setFlagThenResult_onlyRegisters (s : State) (x : Reg) (f : Bool) (b : Byte) :
    OnlyRegisters [x, regVF] s (s.setFlagThenResult x f b) where
  regs r hr := by
    rw [State.setFlagThenResult_getV, if_neg (fun h => hr (by simp [h])), if_neg (fun h => hr (by simp [← h]))]
  memory _ := rfl
  rest := rfl

/-! ### Stores -/

/-- The bytes of a run of stores, where the run fits. -/
theorem State.writeAll_byteAt (s : State) {a : Nat} (bs : List Byte) (k : Nat) (h : Memory.wf s.cfg s.mem)
    (ha : a + bs.length ≤ s.cfg.memSize ∨ bs = []) :
    ({ s with mem := Memory.writeAll s.cfg s.mem a bs } : State).byteAt k =
      if a ≤ k ∧ k < a + bs.length then bs.getD (k - a) 0 else s.byteAt k :=
  Memory.read_writeAll bs k h ha

/-- The part of a run that has room fits. -/
theorem State.take_room_fits (s : State) (a : Nat) (bs : List Byte) :
    a + (bs.take (s.room a)).length ≤ s.cfg.memSize ∨ bs.take (s.room a) = [] := by
  by_cases h : a < s.cfg.memSize
  · exact .inl (by simp [State.room]; omega)
  · exact .inr (by simp [State.room, show s.cfg.memSize - a = 0 by omega])

/-- The byte that `FX55` stores at place `r` of its run is `V[r]`. -/
theorem regsThrough_map_getD (s : State) {x r : Reg} (h : r ≤ x) : ((regsThrough x).map s.getV).getD r.val 0 = s.getV r := by
  have hr : r.val < (regsThrough x).length := by rw [regsThrough_length]; exact Nat.lt_succ_of_le h
  simp [List.getD_eq_getElem?_getD, List.getElem?_eq_getElem hr, regsThrough_getElem x r hr]

/-- A store with room: the state it leaves. -/
theorem State.storeBytes_room {s : State} {a : Nat} {bs : List Byte} (h : a + bs.length ≤ s.cfg.memSize) :
    s.storeBytes a bs = { s with mem := Memory.writeAll s.cfg s.mem a bs } := by
  rw [State.storeBytes_eq, if_pos (by simp only [State.room]; omega)]

/-- `FX55` with room (43_index_memory.md R195). -/
theorem exec_ldMemVx_room {x : Reg} {s : State} (h : s.effectiveAddress x.val < s.cfg.memSize) :
    exec (.ldMemVx x) s = .next
      { s with mem := Memory.writeAll s.cfg s.mem (s.effectiveAddress 0) ((regsThrough x).map s.getV) } :=
  congrArg Host.Outcome.next <| State.storeBytes_room <| by
    simp only [State.effectiveAddress, List.length_map, regsThrough_length] at h ⊢
    omega

/-- `FX33` with room (43_index_memory.md R194). -/
theorem exec_ldBVx_room {x : Reg} {s : State} (h : s.effectiveAddress 2 < s.cfg.memSize) :
    exec (.ldBVx x) s = .next
      { s with mem := Memory.writeAll s.cfg s.mem (s.effectiveAddress 0) (bcdDigits (s.getV x)) } :=
  congrArg Host.Outcome.next <| State.storeBytes_room <| by
    simp only [State.effectiveAddress, bcdDigits, List.length_cons, List.length_nil] at h ⊢
    omega

/-! ### Fetch -/

/-- A fetch where both bytes exist. -/
theorem State.fetch_ok {s : State} (h : s.pc.toNat + 1 < s.cfg.memSize) :
    s.fetch = .ok (wordOfBytes (s.byteAt s.pc.toNat) (s.byteAt (s.pc.toNat + 1))) := by
  rw [State.fetch_eq, if_pos h]

end Sys2Proof.Machine
end

