-- ==== Sys2Proof/Laws/PerInstr.lean ====
section
/-! SUPPORT. Laws of the instructions as syntax, one lemma for each constructor. -/

namespace Sys2Proof.Laws

/-! ### The formats under the masks of the opcode map -/

theorem formatAddr_mask (g : BitVec 4) (a : BitVec 12) : formatAddr g a &&& 0xF000#16 = formatAddr g 0 := by
  apply BitVec.eq_of_getLsbD_eq
  intro j hj
  rw [BitVec.getLsbD_and, getLsbD_formatAddr, getLsbD_formatAddr]
  interval_cases j <;> simp

theorem formatXByte_mask (g : BitVec 4) (x : Reg) (b : Byte) : formatXByte g x b &&& 0xF000#16 = formatXByte g 0 0 := by
  apply BitVec.eq_of_getLsbD_eq
  intro j hj
  rw [BitVec.getLsbD_and, getLsbD_formatXByte, getLsbD_formatXByte]
  interval_cases j <;> simp [regBits]

theorem formatX_mask (g : BitVec 4) (x : Reg) (b : Byte) : formatXByte g x b &&& 0xF0FF#16 = formatXByte g 0 b := by
  apply BitVec.eq_of_getLsbD_eq
  intro j hj
  rw [BitVec.getLsbD_and, getLsbD_formatXByte, getLsbD_formatXByte]
  interval_cases j <;> simp [regBits]

theorem formatXYN_mask (g : BitVec 4) (x y : Reg) (n : BitVec 4) :
    formatXYN g x y n &&& 0xF000#16 = formatXYN g 0 0 0 := by
  apply BitVec.eq_of_getLsbD_eq
  intro j hj
  rw [BitVec.getLsbD_and, getLsbD_formatXYN, getLsbD_formatXYN]
  interval_cases j <;> simp [regBits]

theorem formatXY_mask (g : BitVec 4) (x y : Reg) (n : BitVec 4) :
    formatXYN g x y n &&& 0xF00F#16 = formatXYN g 0 0 n := by
  apply BitVec.eq_of_getLsbD_eq
  intro j hj
  rw [BitVec.getLsbD_and, getLsbD_formatXYN, getLsbD_formatXYN]
  interval_cases j <;> simp [regBits]

/-! ### The family MatchesRow -/

/-- The word of an instruction matches its row of the opcode map: every fixed bit of 30_encoding.md R94 is in place. -/
def MatchesRow.Statement (i : Instr) : Prop := (opcodeRow i).Matches (encode i)

theorem MatchesRow.cls : MatchesRow.Statement .cls := rfl

theorem MatchesRow.ret : MatchesRow.Statement .ret := rfl

theorem MatchesRow.jpAddr (a : BitVec 12) : MatchesRow.Statement (.jpAddr a) :=
  (formatAddr_mask _ _).trans rfl

theorem MatchesRow.callAddr (a : BitVec 12) : MatchesRow.Statement (.callAddr a) :=
  (formatAddr_mask _ _).trans rfl

theorem MatchesRow.seVxByte (x : Reg) (b : Byte) : MatchesRow.Statement (.seVxByte x b) :=
  (formatXByte_mask _ _ _).trans rfl

theorem MatchesRow.sneVxByte (x : Reg) (b : Byte) : MatchesRow.Statement (.sneVxByte x b) :=
  (formatXByte_mask _ _ _).trans rfl

theorem MatchesRow.seVxVy (x y : Reg) : MatchesRow.Statement (.seVxVy x y) :=
  (formatXY_mask _ _ _ _).trans rfl

theorem MatchesRow.ldVxByte (x : Reg) (b : Byte) : MatchesRow.Statement (.ldVxByte x b) :=
  (formatXByte_mask _ _ _).trans rfl

theorem MatchesRow.addVxByte (x : Reg) (b : Byte) : MatchesRow.Statement (.addVxByte x b) :=
  (formatXByte_mask _ _ _).trans rfl

theorem MatchesRow.ldVxVy (x y : Reg) : MatchesRow.Statement (.ldVxVy x y) :=
  (formatXY_mask _ _ _ _).trans rfl

theorem MatchesRow.orVxVy (x y : Reg) : MatchesRow.Statement (.orVxVy x y) :=
  (formatXY_mask _ _ _ _).trans rfl

theorem MatchesRow.andVxVy (x y : Reg) : MatchesRow.Statement (.andVxVy x y) :=
  (formatXY_mask _ _ _ _).trans rfl

theorem MatchesRow.xorVxVy (x y : Reg) : MatchesRow.Statement (.xorVxVy x y) :=
  (formatXY_mask _ _ _ _).trans rfl

theorem MatchesRow.addVxVy (x y : Reg) : MatchesRow.Statement (.addVxVy x y) :=
  (formatXY_mask _ _ _ _).trans rfl

theorem MatchesRow.subVxVy (x y : Reg) : MatchesRow.Statement (.subVxVy x y) :=
  (formatXY_mask _ _ _ _).trans rfl

theorem MatchesRow.shrVx (x y : Reg) : MatchesRow.Statement (.shrVx x y) :=
  (formatXY_mask _ _ _ _).trans rfl

theorem MatchesRow.subnVxVy (x y : Reg) : MatchesRow.Statement (.subnVxVy x y) :=
  (formatXY_mask _ _ _ _).trans rfl

theorem MatchesRow.shlVx (x y : Reg) : MatchesRow.Statement (.shlVx x y) :=
  (formatXY_mask _ _ _ _).trans rfl

theorem MatchesRow.sneVxVy (x y : Reg) : MatchesRow.Statement (.sneVxVy x y) :=
  (formatXY_mask _ _ _ _).trans rfl

theorem MatchesRow.ldIAddr (a : BitVec 12) : MatchesRow.Statement (.ldIAddr a) :=
  (formatAddr_mask _ _).trans rfl

theorem MatchesRow.jpV0Addr (a : BitVec 12) : MatchesRow.Statement (.jpV0Addr a) :=
  (formatAddr_mask _ _).trans rfl

theorem MatchesRow.rndVxByte (x : Reg) (b : Byte) : MatchesRow.Statement (.rndVxByte x b) :=
  (formatXByte_mask _ _ _).trans rfl

theorem MatchesRow.drwVxVyN (x y : Reg) (n : Nat) : MatchesRow.Statement (.drwVxVyN x y n) :=
  (formatXYN_mask _ _ _ _).trans rfl

theorem MatchesRow.skpVx (x : Reg) : MatchesRow.Statement (.skpVx x) :=
  (formatX_mask _ _ _).trans rfl

theorem MatchesRow.sknpVx (x : Reg) : MatchesRow.Statement (.sknpVx x) :=
  (formatX_mask _ _ _).trans rfl

theorem MatchesRow.ldVxDt (x : Reg) : MatchesRow.Statement (.ldVxDt x) :=
  (formatX_mask _ _ _).trans rfl

theorem MatchesRow.ldVxK (x : Reg) : MatchesRow.Statement (.ldVxK x) :=
  (formatX_mask _ _ _).trans rfl

theorem MatchesRow.ldDtVx (x : Reg) : MatchesRow.Statement (.ldDtVx x) :=
  (formatX_mask _ _ _).trans rfl

theorem MatchesRow.ldStVx (x : Reg) : MatchesRow.Statement (.ldStVx x) :=
  (formatX_mask _ _ _).trans rfl

theorem MatchesRow.addIVx (x : Reg) : MatchesRow.Statement (.addIVx x) :=
  (formatX_mask _ _ _).trans rfl

theorem MatchesRow.ldFVx (x : Reg) : MatchesRow.Statement (.ldFVx x) :=
  (formatX_mask _ _ _).trans rfl

theorem MatchesRow.ldBVx (x : Reg) : MatchesRow.Statement (.ldBVx x) :=
  (formatX_mask _ _ _).trans rfl

theorem MatchesRow.ldMemVx (x : Reg) : MatchesRow.Statement (.ldMemVx x) :=
  (formatX_mask _ _ _).trans rfl

theorem MatchesRow.ldVxMem (x : Reg) : MatchesRow.Statement (.ldVxMem x) :=
  (formatX_mask _ _ _).trans rfl

end Sys2Proof.Laws
end

