-- ==== Sys2Proof/Tests/Slice0.lean ====
section
/-! SUPPORT. Tests, each with the number of its vector in spec/95_test_vectors.md, and a witness for the hypotheses of
each statement of Certificates/Slice0/Obligations.lean. -/

namespace Sys2Proof.Tests

open Sys2Proof Sys2Proof.Machine

/-! ## Helpers -/

/-- The start state of 95_test_vectors.md section 0: a cold reset, then `ack_dirty`. -/
def base : State := State.reset.ackDirty

/-- The state with bytes in memory. -/
def withBytes (s : State) (a : Nat) (bs : List Byte) : State := { s with mem := Memory.writeAll s.cfg s.mem a bs }

/-- The state with one lit cell more. -/
def lit (r : Fin 32) (c : Fin 64) (s : State) : State := s.setCell r c true

/-- The next state of an outcome, or the reset state. -/
def next : Host.Outcome State Fault Refusal → State
  | .next t => t
  | .fault _ => State.reset
  | .refused _ => State.reset

/-- One step of a word placed at PC. -/
def after (w : Nat) (s : State) : State := next (step (s.withFetchWord 16 w))

/-- Some registers. -/
def regs (rs : List Reg) (s : State) : List Byte := rs.map s.getV

/-- Some bytes of memory. -/
def bytes (a n : Nat) (s : State) : List Byte := (List.range' a n).map s.byteAt

/-- The lit cells of a row. -/
def litIn (r : Fin 32) (s : State) : List (Fin 64) := (List.finRange 64).filter (s.cell r)

/-- What a fault leaves: the latch and PC. -/
def latch (s : State) : Bool × Nat × Nat × Nat := (s.faulted, s.faultCode.toNat, s.faultInfo.toNat, s.pc.toNat)

/-! ## Ill-formed terms -/

/-- The one check: a sprite height has four bits (30_encoding.md R92). -/
theorem test_wellFormed_refuses_height_16 : Instr.wellFormed (.drwVxVyN 0 0 16) = false := by decide

theorem test_wellFormed_allows_height_15 : Instr.wellFormed (.drwVxVyN 0 0 15) = true := by decide

/-! ## Decoding (vectors 2.1) -/

theorem test_decode_flow :
    decode 0x00E0 = .ok .cls ∧ decode 0x00EE = .ok .ret ∧ decode 0x1ABC = .ok (.jpAddr 0xABC) ∧
    decode 0x2ABC = .ok (.callAddr 0xABC) ∧ decode 0x3A42 = .ok (.seVxByte 0xA 0x42) ∧
    decode 0x4A42 = .ok (.sneVxByte 0xA 0x42) ∧ decode 0x5120 = .ok (.seVxVy 1 2) ∧
    decode 0x9120 = .ok (.sneVxVy 1 2) ∧ decode 0xB300 = .ok (.jpV0Addr 0x300) := ⟨rfl, rfl, rfl, rfl, rfl, rfl, rfl, rfl, rfl⟩

theorem test_decode_load_alu :
    decode 0x6AFF = .ok (.ldVxByte 0xA 0xFF) ∧ decode 0x7002 = .ok (.addVxByte 0 2) ∧
    decode 0x8120 = .ok (.ldVxVy 1 2) ∧ decode 0x8121 = .ok (.orVxVy 1 2) ∧ decode 0x8122 = .ok (.andVxVy 1 2) ∧
    decode 0x8123 = .ok (.xorVxVy 1 2) ∧ decode 0x8124 = .ok (.addVxVy 1 2) ∧ decode 0x8125 = .ok (.subVxVy 1 2) ∧
    decode 0x8126 = .ok (.shrVx 1 2) ∧ decode 0x8127 = .ok (.subnVxVy 1 2) ∧ decode 0x812E = .ok (.shlVx 1 2) ∧
    decode 0xC30F = .ok (.rndVxByte 3 0x0F) := ⟨rfl, rfl, rfl, rfl, rfl, rfl, rfl, rfl, rfl, rfl, rfl, rfl⟩

theorem test_decode_memory_display :
    decode 0xA123 = .ok (.ldIAddr 0x123) ∧ decode 0xF11E = .ok (.addIVx 1) ∧ decode 0xF029 = .ok (.ldFVx 0) ∧
    decode 0xF033 = .ok (.ldBVx 0) ∧ decode 0xF255 = .ok (.ldMemVx 2) ∧ decode 0xF265 = .ok (.ldVxMem 2) ∧
    decode 0xD125 = .ok (.drwVxVyN 1 2 5) := ⟨rfl, rfl, rfl, rfl, rfl, rfl, rfl⟩

theorem test_decode_keys_timers :
    decode 0xE19E = .ok (.skpVx 1) ∧ decode 0xE1A1 = .ok (.sknpVx 1) ∧ decode 0xF207 = .ok (.ldVxDt 2) ∧
    decode 0xF30A = .ok (.ldVxK 3) ∧ decode 0xF115 = .ok (.ldDtVx 1) ∧ decode 0xF118 = .ok (.ldStVx 1) :=
  ⟨rfl, rfl, rfl, rfl, rfl, rfl⟩

/-- The illegal words of the vectors. -/
theorem test_decode_illegal :
    ([0x0000, 0x00E1, 0x01E0, 0x0123, 0x0FFF, 0x5121, 0x512F, 0x8128] ++
     [0x812D, 0x812F, 0x9121, 0xE100, 0xE19F, 0xF100, 0xF1FF, 0xF156]).all
      (fun w => (decodeTableWord 16 w).isNone) = true := by decide

/-- One byte is no instruction (30_encoding.md R90). -/
theorem test_decode_truncated : decodeBytes [0x12] = .error .truncated := rfl

/-! ## The step (vectors 2.2) -/

/-- T2: the pulse at the end of a tone. -/
theorem test_step_tone_stop :
    let t := after 0x6000 { base with st := 1 }
    t.toneStop = true ∧ t.st = 0 ∧ t.dt = 0 ∧ t.ir = 0x6000 := by decide

/-- T4: no tick on a faulting step. -/
theorem test_step_no_tick_on_fault :
    let t := after 0x0000 { base with dt := 4, st := 1 }
    latch t = (true, 2, 0, 0x202) ∧ t.dt = 4 ∧ t.st = 1 ∧ t.toneStop = false := by decide

/-- T6: the low byte of the word does not exist. -/
theorem test_fetch_low_byte_missing :
    latch (next (step { withBytes base 0xFFF [0x12] with pc := 0xFFF })) = (true, 1, 0x1000, 0xFFF) := by decide

/-- T9: odd addresses execute. -/
theorem test_fetch_odd_address :
    let t := after 0x6A05 { base with pc := 0x201 }
    regs [0xA] t = [5] ∧ t.pc = 0x203 := by decide

/-! ## Control flow (vectors 2.3) -/

/-- F1. -/
theorem test_jp : (after 0x1ABC base).pc = 0xABC := by decide

/-- F3. -/
theorem test_call_pushes_advanced_pc :
    let t := after 0x2ABC base
    t.pc = 0xABC ∧ t.stack = [0x202] := by decide

/-- F5. -/
theorem test_call_overflow :
    let t := after 0x2300 { base with stack := List.replicate 16 0x222 }
    latch t = (true, 4, 0, 0x202) ∧ t.stack = List.replicate 16 0x222 := by decide

/-- F6; the entry pushed last is the head here. -/
theorem test_ret_pops_last :
    let t := after 0x00EE { base with stack := [0x400, 0x206] }
    t.pc = 0x400 ∧ t.stack = [0x206] := by decide

/-- F7. -/
theorem test_ret_underflow : latch (after 0x00EE base) = (true, 3, 0, 0x202) := by decide

/-- F9: the target is not cut to 12 bits. -/
theorem test_jp_v0_keeps_carry : (after 0xBFFF (base.setV 0 0xFF)).pc = 0x10FE := by decide

/-- F10, F11. -/
theorem test_se_byte :
    (after 0x3A42 (base.setV 0xA 0x42)).pc = 0x204 ∧ (after 0x3A42 (base.setV 0xA 0x43)).pc = 0x202 := by decide

/-- F12, F13. -/
theorem test_sne_byte :
    (after 0x4A42 (base.setV 0xA 0x42)).pc = 0x202 ∧ (after 0x4A42 (base.setV 0xA 0x43)).pc = 0x204 := by decide

/-- F14, F15. -/
theorem test_se_reg :
    (after 0x5120 ((base.setV 1 7).setV 2 7)).pc = 0x204 ∧ (after 0x5120 ((base.setV 1 7).setV 2 8)).pc = 0x202 := by
  decide

/-- F17, F18. -/
theorem test_sne_reg :
    (after 0x9120 ((base.setV 1 7).setV 2 7)).pc = 0x202 ∧ (after 0x9120 ((base.setV 1 7).setV 2 8)).pc = 0x204 := by
  decide

/-! ## Load, arithmetic, logic, shift (vectors 2.4) -/

/-- A1. -/
theorem test_ld_byte : regs [0xA] (after 0x6AFF base) = [0xFF] := by decide

/-- A2: no carry recorded. -/
theorem test_add_byte_no_carry : regs [0, 15] (after 0x7002 ((base.setV 0 0xFF).setV 15 0x55)) = [1, 0x55] := by decide

/-- A4. -/
theorem test_ld_reg : regs [1, 2, 15] (after 0x8120 (((base.setV 1 1).setV 2 0xAB).setV 15 9)) = [0xAB, 0xAB, 9] := by
  decide

/-- A5: VF kept. -/
theorem test_or : regs [1, 15] (after 0x8121 (((base.setV 1 0x0F).setV 2 0xF0).setV 15 9)) = [0xFF, 9] := by decide

/-- A6. -/
theorem test_and : regs [1, 15] (after 0x8122 (((base.setV 1 0x3C).setV 2 0x0F).setV 15 9)) = [0x0C, 9] := by decide

/-- A7. -/
theorem test_xor : regs [1, 15] (after 0x8123 (((base.setV 1 0xFF).setV 2 0x0F).setV 15 9)) = [0xF0, 9] := by decide

/-- A9, A10. -/
theorem test_add_carry :
    regs [0, 15] (after 0x8014 ((base.setV 0 0xFF).setV 1 2)) = [1, 1] ∧
    regs [0, 15] (after 0x8014 (((base.setV 0 0x7F).setV 1 0x80).setV 15 1)) = [0xFF, 0] := by decide

/-- A11, A12: VF as destination, VF as operand. -/
theorem test_add_vf :
    regs [15] (after 0x8F14 ((base.setV 15 0x10).setV 1 0xF8)) = [8] ∧
    regs [1, 15] (after 0x81F4 ((base.setV 1 1).setV 15 0xFF)) = [0, 1] := by decide

/-- A15, A17: borrow, and equality. -/
theorem test_sub :
    regs [0, 15] (after 0x8015 ((base.setV 0 2).setV 1 5)) = [0xFD, 0] ∧
    regs [0, 15] (after 0x8015 ((base.setV 0 0x33).setV 1 0x33)) = [0, 1] := by decide

/-- A20, A21. -/
theorem test_subn :
    regs [0, 15] (after 0x8017 ((base.setV 0 2).setV 1 5)) = [3, 1] ∧
    regs [0, 15] (after 0x8017 ((base.setV 0 5).setV 1 2)) = [0xFD, 0] := by decide

/-- A23, A26: Vy ignored, and the result wins over the flag. -/
theorem test_shr :
    regs [1, 2, 15] (after 0x8126 ((base.setV 1 5).setV 2 0xF0)) = [2, 0xF0, 1] ∧
    regs [15] (after 0x8F06 (base.setV 15 7)) = [3] := by decide

/-- A28, A29. -/
theorem test_shl :
    regs [1, 15] (after 0x812E ((base.setV 1 0x40).setV 15 1)) = [0x80, 0] ∧
    regs [15] (after 0x8F0E (base.setV 15 0x81)) = [2] := by decide

/-- A30: what holds whatever the draw is. -/
theorem test_rnd_mask : (after 0xC30F (base.setV 3 0xEE)).getV 3 = Config.randomByte 0 &&& 0x0F := rfl

/-! ## Index and memory (vectors 2.5) -/

/-- M1. -/
theorem test_ld_i : (after 0xA123 base).i = 0x123 := by decide

/-- M2, M3. -/
theorem test_add_i :
    (after 0xF11E { base.setV 1 0x10 with i := 0xFF8 }).i = 0x1008 ∧
    (after 0xF11E { base.setV 1 2 with i := 0xFFFF }).i = 1 := by decide

/-- M4, M5: the digit is not masked. -/
theorem test_ld_f : (after 0xF029 (base.setV 0 0xA)).i = 0x32 ∧ (after 0xF029 (base.setV 0 0xFF)).i = 0x4FB := by decide

/-- M10. -/
theorem test_bcd : bytes 0x300 4 (after 0xF033 { base.setV 0 255 with i := 0x300 }) = [2, 5, 5, 0] := by decide

/-- M12: two digits stored. -/
theorem test_bcd_end_of_memory :
    let t := after 0xF033 { base.setV 0 234 with i := 0xFFE }
    latch t = (true, 1, 0x1000, 0x202) ∧ bytes 0xFFE 2 t = [2, 3] := by decide

/-- M15. -/
theorem test_store :
    let t := after 0xF255 { (((base.setV 0 0x11).setV 1 0x22).setV 2 0x33).setV 3 0x44 with i := 0x400 }
    bytes 0x400 4 t = [0x11, 0x22, 0x33, 0] ∧ t.i = 0x400 := by decide

/-- M18: a partial store stays. -/
theorem test_store_end_of_memory :
    let t := after 0xF355 { (((base.setV 0 0x11).setV 1 0x22).setV 2 0x33).setV 3 0x44 with i := 0xFFE }
    latch t = (true, 1, 0x1000, 0x202) ∧ bytes 0xFFE 2 t = [0x11, 0x22] ∧ t.i = 0xFFE := by decide

/-- M21: the font is readable data. -/
theorem test_load_font : regs [0, 1, 2, 3, 4, 5] (after 0xF465 base) = [0xF0, 0x90, 0x90, 0x90, 0xF0, 0] := by decide

/-- M20: a partial load stays. -/
theorem test_load_end_of_memory :
    let t := after 0xF365 (withBytes { (base.setV 2 0x77).setV 3 0x99 with i := 0xFFE } 0xFFE [0xAA, 0xBB])
    latch t = (true, 1, 0x1000, 0x202) ∧ regs [0, 1, 2, 3] t = [0xAA, 0xBB, 0x77, 0x99] := by decide

/-! ## Display (vectors 2.6) -/

/-- G1. -/
theorem test_cls :
    let t := after 0x00E0 (lit 0 0 (lit 31 63 (base.setV 15 5)))
    t.disp = base.disp ∧ t.dirty = true ∧ regs [15] t = [5] := ⟨rfl, rfl, rfl⟩

/-- G2: bit 7 is the left pixel. -/
theorem test_drw_bit_order :
    let t := after 0xD011 (withBytes { base with i := 0x300 } 0x300 [0x81])
    t.disp = (lit 0 0 (lit 0 7 base)).disp ∧ regs [15] t = [0] ∧ t.dirty = true := ⟨by decide, rfl, rfl⟩

/-- G11: a collision in the first row only. -/
theorem test_drw_sticky_flag :
    let t := after 0xD012 (lit 0 0 (withBytes { base with i := 0x300 } 0x300 [0x80, 0x80]))
    litIn 0 t = [] ∧ litIn 1 t = [0] ∧ regs [15] t = [1] := by decide

/-! ## Keys and timers (vectors 2.7) -/

/-- K1, K3: the whole byte is the key number. -/
theorem test_skp :
    (after 0xE19E { base.setV 1 5 with keys := 0x20 }).pc = 0x204 ∧
    (after 0xE19E { base.setV 1 0x15 with keys := 0xFFFF }).pc = 0x202 := by decide

/-- K4, K6. -/
theorem test_sknp :
    (after 0xE1A1 { base.setV 1 5 with keys := 0x20 }).pc = 0x202 ∧
    (after 0xE1A1 { base.setV 1 0x15 with keys := 0xFFFF }).pc = 0x204 := by decide

/-- K9: the lowest key. -/
theorem test_key_wait_lowest :
    let t := after 0xF30A { base.setV 3 0x99 with keys := 0x8408 }
    regs [3] t = [3] ∧ t.pc = 0x202 ∧ t.keys = 0x8408 := by decide

/-- K10: timers run during the wait. -/
theorem test_key_wait_none :
    let t := after 0xF30A { base with dt := 5, st := 1 }
    t.pc = 0x200 ∧ t.dt = 4 ∧ t.st = 0 ∧ t.toneStop = true := by decide

/-- K11. -/
theorem test_ld_vx_dt :
    let t := after 0xF207 { base with dt := 0x2A }
    regs [2] t = [0x2A] ∧ t.dt = 0x29 := by decide

/-- K13. -/
theorem test_ld_dt : (after 0xF115 (base.setV 1 3)).dt = 2 := by decide

/-- K17. -/
theorem test_ld_st :
    let t := after 0xF118 (base.setV 1 1)
    t.st = 0 ∧ t.toneStop = true := by decide

/-! ## Host commands (vectors 2.8) -/

/-- H1, H3, H6. -/
theorem test_press_release :
    (base.press 3).keys = 8 ∧ (base.press 16).keys = 0 ∧ (State.release { base with keys := 0x8408 } 0xA).keys = 0x8008 := by
  decide

/-- H7, H8, H11, H12. -/
theorem test_load_bounds :
    (base.load [0x12, 0] 0x04F).1 = .rejected ∧ (base.load [0x12, 0] 0x050).1 = .accepted ∧
    (base.load [] 0x1000).1 = .accepted ∧ (base.load [0] 0x1000).1 = .rejected := by decide

/-- The word 0x1234 of 20_memory.md R65: the byte at the lower address is the high byte. -/
theorem test_load_then_fetch : (base.load [0x12, 0x34]).2.fetch = .ok 0x1234 := rfl

/-- P7 (d): a core just reset with nothing loaded. -/
theorem test_reset_runs_an_illegal_word : latch (next (step State.reset)) = (true, 2, 0, 0x202) := by decide

/-! ## Witnesses: for each statement with hypotheses, a concrete case that meets them, at a boundary for each clause -/

/-- A word placed at 0x200. -/
def placed (w : Nat) (s : State) : State := s.withFetchWord 16 w

theorem witness_decodeOfEncode : Instr.wellFormed (.drwVxVyN 15 15 15) = true := by decide

theorem witness_encodeOfDecode : decode 0xDFFF = .ok (.drwVxVyN 15 15 15) := rfl

theorem witness_wordIsAnInstruction :
    Instr.ldVxMem 0 ∈ opcodeMap ∧ (opcodeRow (.ldVxMem 0)).Matches 0xFF65 ∧ Instr.cls ∈ opcodeMap ∧
    (opcodeRow .cls).Matches 0x00E0 := by decide

theorem witness_readAfterWrite : Memory.wf base.cfg base.mem ∧ 4095 < base.cfg.memSize := by decide

theorem witness_accessIsValid : 4095 < base.cfg.memSize ∧ base.cfg.memSize ≤ 4096 := by decide

theorem witness_canonicalMemories :
    Memory.wf base.cfg (withBytes base 0xFFF [7]).mem ∧ (withBytes base 0xFFF [7]).mem = [(0xFFF, 7)] := by decide

/-- A word in the last two bytes of memory, and its decoding. -/
theorem witness_stepExecutes :
    (placed 0x3000 { base with pc := 0xFFE }).FetchesWord 0x3000 ∧ decode 0x3000 = .ok (.seVxByte 0 0) :=
  ⟨⟨rfl, by decide, rfl⟩, rfl⟩

theorem witness_fetchBeyond :
    let s : State := { base with pc := 0x1000 }
    let t : State := { base with pc := 0xFFF }
    s.faulted = false ∧ s.cfg.memSize ≤ s.pc.toNat ∧ t.faulted = false ∧ t.pc.toNat + 1 = t.cfg.memSize := by decide

theorem witness_illegalWord : base.FetchesWord 0x0000 ∧ decode 0x0000 = .error (.unknownOpcode 0x0000) :=
  ⟨⟨rfl, by decide, rfl⟩, rfl⟩

/-- Timers at 0, and timers at 1 and above. -/
theorem witness_timerTick :
    let s := placed 0x6000 { base with dt := 0, st := 0 }
    let t := placed 0x6000 { base with dt := 2, st := 1 }
    s.FetchesWord 0x6000 ∧ t.FetchesWord 0x6000 ∧ decode 0x6000 = .ok (.ldVxByte 0 0) ∧
    (∃ u, exec (.ldVxByte 0 0) { s with toneStop := false, ir := 0x6000, pc := s.pc + 2 } = .next u ∧
      u.faulted = false ∧ u.dt = 0 ∧ u.st = 0) ∧
    ∃ u, exec (.ldVxByte 0 0) { t with toneStop := false, ir := 0x6000, pc := t.pc + 2 } = .next u ∧
      u.faulted = false ∧ u.dt ≠ 0 ∧ u.st.toNat = 1 :=
  ⟨⟨rfl, by decide, rfl⟩, ⟨rfl, by decide, rfl⟩, rfl, ⟨_, rfl, rfl, rfl, rfl⟩, ⟨_, rfl, rfl, by decide, rfl⟩⟩

theorem witness_haltedStep : (base.raise .stackUnderflow).faulted = true := rfl

theorem witness_raising : (0x1000E : Nat) ≤ 0x1000E := by decide

/-- A fault of a return (every clause applies), and faults of the three transfers. -/
theorem witness_faultsArePrecise :
    (∃ t, step (placed 0x00EE base) = .next t ∧ t.faulted = true ∧ (∀ x, decode t.ir ≠ .ok (.ldBVx x)) ∧
      (∀ x, decode t.ir ≠ .ok (.ldMemVx x)) ∧ ∀ x, decode t.ir ≠ .ok (.ldVxMem x)) ∧
    (∃ t, step (placed 0xF355 { base with i := 0xFFE }) = .next t ∧ t.faulted = true ∧
      ∀ x, decode t.ir ≠ .ok (.ldVxMem x)) ∧
    ∃ t, step (placed 0xF365 { base with i := 0xFFE }) = .next t ∧ t.faulted = true ∧
      ∀ x, decode t.ir ≠ .ok (.ldMemVx x) :=
  ⟨⟨_, rfl, rfl, by decide, by decide, by decide⟩, ⟨_, rfl, rfl, by decide⟩, ⟨_, rfl, rfl, by decide⟩⟩

theorem witness_onlyReset :
    let s := base.raise .stackUnderflow
    s.faulted = true ∧ (Command.press 1) ≠ .reset ∧ command (.press 1) s = .next (s.press 1, .none) :=
  ⟨rfl, by decide, rfl⟩

/-- Depth 15 for the call, one entry for the return. -/
theorem witness_callAndRet :
    (let s : State := { base with stack := List.replicate 15 0x222 }
     s.stack.length < s.cfg.stackLimit) ∧
    ({ base with stack := [0x400] } : State).stack = 0x400 :: [] := by decide

theorem witness_stackFaults :
    base.stack = [] ∧ (let s : State := { base with stack := List.replicate 16 0x222 }
                       s.stack.length = s.cfg.stackLimit) := by decide

/-- An instruction in sequence, a skip, and a key wait. -/
theorem witness_pcMoves :
    (∃ t, exec .cls base = .next t ∧ t.pc = base.pc) ∧ (∃ t, exec (.seVxByte 0 0) base = .next t ∧ t.pc = base.pc + 2) ∧
    ∃ t, exec (.ldVxK 0) base = .next t ∧ t.pc = base.pc - 2 := ⟨⟨_, rfl, rfl⟩, ⟨_, rfl, rfl⟩, ⟨_, rfl, by decide⟩⟩

/-- For the sums, differences and shifts: a destination that is not VF. -/
theorem witness_destinationNotVF : (14 : Reg) ≠ regVF := by decide

/-- The last place with room for three digits. -/
theorem witness_bcdStores :
    let s : State := { base with i := 0xFFD }
    Memory.wf s.cfg s.mem ∧ s.effectiveAddress 2 < s.cfg.memSize := by decide

/-- Room for two digits, for one, and for none. -/
theorem witness_bcdStops :
    (let s : State := { base with i := 0xFFE }
     Memory.wf s.cfg s.mem ∧ s.cfg.memSize ≤ s.effectiveAddress 2 ∧ s.effectiveAddress 1 < s.cfg.memSize) ∧
    (let s : State := { base with i := 0xFFF }
     s.cfg.memSize ≤ s.effectiveAddress 1 ∧ s.effectiveAddress 0 < s.cfg.memSize) ∧
    (let s : State := { base with i := 0x1000 }
     s.cfg.memSize ≤ s.effectiveAddress 0) := by decide

/-- The last place with room for sixteen registers; also for the loads. -/
theorem witness_storeAndLoadWithRoom :
    let s : State := { base with i := 0xFF0 }
    Memory.wf s.cfg s.mem ∧ s.effectiveAddress (15 : Reg).val < s.cfg.memSize ∧ (15 : Reg) ≤ 15 := by decide

/-- One register too many; also for the loads. -/
theorem witness_storeAndLoadWithoutRoom :
    let s : State := { base with i := 0xFF1 }
    Memory.wf s.cfg s.mem ∧ s.cfg.memSize ≤ s.effectiveAddress (15 : Reg).val ∧
    s.effectiveAddress (14 : Reg).val < s.cfg.memSize := by decide

/-- What a store of three bytes over or beside the word at PC has to meet. -/
def storeHasRoom (s : State) : Prop :=
  Memory.wf s.cfg s.mem ∧ s.pc.toNat + 1 < s.cfg.memSize ∧ s.effectiveAddress (2 : Reg).val < s.cfg.memSize

/-- Stores that cover both bytes at PC (in the last word of memory), the high one alone, the low one alone, and none. -/
theorem witness_storedBytesAreFetched :
    (let s : State := { base with i := 0xFFD, pc := 0xFFE }
     storeHasRoom s ∧ s.effectiveAddress 1 = s.pc.toNat ∧ s.effectiveAddress 2 = s.pc.toNat + 1) ∧
    (let s : State := { base with i := 0x2FE, pc := 0x300 }
     storeHasRoom s ∧ s.effectiveAddress 2 = s.pc.toNat ∧ (∀ r : Reg, r ≤ 2 → s.effectiveAddress r.val ≠ s.pc.toNat + 1) ∧
     ∀ k < 3, s.effectiveAddress k ≠ s.pc.toNat + 1) ∧
    (let s : State := { base with i := 0x301, pc := 0x300 }
     storeHasRoom s ∧ s.effectiveAddress 0 = s.pc.toNat + 1 ∧
     (∀ r : Reg, r ≤ 2 → s.effectiveAddress r.val ≠ s.pc.toNat) ∧ ∀ k < 3, s.effectiveAddress k ≠ s.pc.toNat) ∧
    (let s : State := { base with i := 0x302, pc := 0x300 }
     storeHasRoom s ∧ (∀ k < 3, s.effectiveAddress k ≠ s.pc.toNat) ∧ ∀ k < 3, s.effectiveAddress k ≠ s.pc.toNat + 1) := by
  simp only [storeHasRoom]
  decide

/-- M22: two registers stored over the next word. -/
theorem test_store_seen_by_next_fetch :
    (after 0xF155 { base.setV 0 0x12 with i := 0x202 }).fetch = .ok 0x1200 := rfl

/-- A sprite in the last bytes of memory, and none at all. -/
theorem witness_drw :
    (let s : State := { base with i := 0xFF1 }
     s.effectiveAddress 15 ≤ s.cfg.memSize) ∧
    (let s : State := { base with i := 0xFFFF }
     s.effectiveAddress 0 ≤ s.cfg.memSize ∨ (0 : Nat) = 0) := by decide

/-- A draw that erases a cell, and one that erases none. -/
theorem witness_drwErasure :
    (∃ t, exec (.drwVxVyN 0 0 1) (lit 0 0 base) = .next t ∧ (lit 0 0 base).cell 0 0 = true ∧ t.cell 0 0 = false) ∧
    ∃ t, exec (.drwVxVyN 0 0 0) base = .next t ∧ ∀ r c, t.cell r c = base.cell r c :=
  ⟨⟨_, rfl, by decide, by decide⟩, ⟨_, rfl, fun _ _ => rfl⟩⟩

theorem witness_drwSpriteReadFault :
    let s : State := { base with i := 0xFFF }
    (2 : Nat) ≠ 0 ∧ s.cfg.memSize < s.effectiveAddress 2 := by decide

/-- Both statements about drawing twice. -/
theorem witness_drawingTwice :
    (0 : Reg) ≠ regVF ∧ (1 : Reg) ≠ regVF ∧ base.effectiveAddress 1 ≤ base.cfg.memSize ∧
    (∃ t u, exec (.drwVxVyN 0 1 1) base = .next t ∧ exec (.drwVxVyN 0 1 1) t = .next u) ∧
    spritePixel (base.getV 0).toNat (base.getV 1).toNat 1 (fun j => base.byteAt (base.effectiveAddress j)) 0 0 = true :=
  ⟨by decide, by decide, by decide, ⟨_, _, rfl, rfl⟩, by decide⟩

theorem witness_keyWait : ({ base with keys := 0x8000 } : State).keys ≠ 0 ∧ base.keys = 0 := by decide

theorem witness_keyWaitStep : (placed 0xF30A base).FetchesWord (encode (.ldVxK 3)) ∧ (placed 0xF30A base).keys = 0 :=
  ⟨⟨rfl, by decide, rfl⟩, rfl⟩

/-- `dirty` 1 before a command that is not `ack_dirty`. -/
theorem witness_ackDirty :
    State.reset.dirty = true ∧ Command.observe ≠ .ackDirty ∧
    command .observe State.reset = .next (State.reset, .observed State.reset.observe) := ⟨rfl, by decide, rfl⟩

/-- A whole number of keys: the last key, and the first that is none. -/
theorem witness_pressAndRelease : (15 : Nat) < 16 ∧ (16 : Nat) ≤ 16 := by decide

theorem witness_resets : (∃ t, t = State.coldReset Config.standard) ∧ ∃ t, t = (base.raise .stackOverflow).softReset :=
  ⟨⟨_, rfl⟩, ⟨_, rfl⟩⟩

/-- An image at the floor, one that ends with memory, and the two that are rejected by one byte. -/
theorem witness_load :
    Memory.wf base.cfg base.mem ∧ (0x050 ≤ 0x050 ∧ 0x050 + [0x12#8, 0].length ≤ base.cfg.memSize) ∧
    (0x050 ≤ 0xFFE ∧ 0xFFE + [0x12#8, 0].length ≤ base.cfg.memSize) ∧
    ¬(0x050 ≤ 0x04F ∧ 0x04F + [0x12#8, 0].length ≤ base.cfg.memSize) ∧
    ¬(0x050 ≤ 0xFFF ∧ 0xFFF + [0x12#8, 0].length ≤ base.cfg.memSize) := by decide

/-- For the writers of each piece of state: an instruction that none of the clauses leaves out. -/
theorem witness_writers : ∃ t, exec (.ldVxByte 3 7) base = .next t ∧ (4 : Reg) ∉ registersWritten (.ldVxByte 3 7) :=
  ⟨_, rfl, by decide⟩

/-- For the statements about every instruction or every command: one that answers a next state. -/
theorem witness_execNext :
    (∃ t, exec (.ldVxMem 15) base = .next t) ∧ base.sp = 0 ∧ ∃ t, command .step base = .next t :=
  ⟨⟨_, rfl⟩, rfl, ⟨_, rfl⟩⟩

/-- Two states that differ in what no instruction reads. -/
theorem witness_unread :
    let s : State := { base with st := 9, ir := 0x1234, dirty := true }
    s ≠ base ∧ s.hideUnread = base.hideUnread := by decide

theorem witness_endOfRun : (placed 0x1200 base).EndOfRun := ⟨rfl, rfl, rfl, 0x200, rfl, rfl⟩

/-- The parameters at both ends of their range. -/
theorem witness_configWellFormed :
    Config.WellFormed { Config.standard with memSize := 0x202, stackLimit := 0 } ∧
    Config.WellFormed { Config.standard with memSize := 65536 } := by decide

theorem reset_inv : State.reset.Inv where
  cfg := by decide
  mem := by decide
  sp := rfl
  stack := by decide
  latch := .inl ⟨rfl, rfl, rfl⟩
  tone := by decide

/-- The invariant meets a step: from reset, whose step raises a fault. -/
theorem witness_everyStep : State.reset.Inv ∧ ∃ t, step State.reset = .next t ∧ t.faulted = true :=
  ⟨reset_inv, _, rfl, rfl⟩

end Sys2Proof.Tests
end

namespace Sys2Proof.Proofs
open Sys2Proof Sys2Proof.Machine

/-- Settles O7: the range check of the bus (20_memory.md R62) decides both accesses, one pair of laws on each side
of the boundary. -/
theorem accessIsValidExactlyBelowMemSize : Obligations.AccessIsValidExactlyBelowMemSize := by
  intro s a b
  constructor
  · intro hBelow
    exact ⟨⟨_, State.memRead_ok hBelow⟩, _, State.memWrite_ok b hBelow⟩
  · intro hBeyond
    exact ⟨State.memRead_error hBeyond, State.memWrite_error b hBeyond⟩

end Sys2Proof.Proofs

namespace Sys2Proof.Proofs
open Sys2Proof Sys2Proof.Machine

/-! ### A step that fetches a legal word -/

/-- Clearing tone_stop does not disturb the fetch of the word at PC (40_step_cycle.md R121, R130). -/
theorem fetch_of_fetchesWord {s : State} {w : Word} (h : s.FetchesWord w) : s.beginStep.fetch = .ok w := by
  obtain ⟨-, hRoom, hWord⟩ := h
  rw [State.fetch_beginStep, State.fetch_ok hRoom, hWord]

theorem step_of_legal_word {s : State} {w : Word} {i : Instr} (hFetch : s.FetchesWord w) (hDecode : decode w = .ok i) :
    step s = complete (exec i (s.beginStep.advance w)) := by
  rw [step, State.prepare_legal hFetch.1 (fetch_of_fetchesWord hFetch) hDecode]

/-- The timer tick ends every step whose instruction raised no fault (40_step_cycle.md R127). -/
theorem step_ticks_without_fault {s t : State} {w : Word} {i : Instr} (hFetch : s.FetchesWord w)
    (hDecode : decode w = .ok i) (hExec : exec i (s.beginStep.advance w) = .next t) (hNoFault : t.faulted = false) :
    step s = .next t.tick := by
  rw [step_of_legal_word hFetch hDecode, hExec, complete_next, hNoFault]
  rfl

/-! ### The tick -/

@[simp] theorem countDown_zero : countDown 0 = 0 := rfl

/-- Counting down is the truncated predecessor: it stays at 0 and never wraps. -/
theorem countDown_toNat (b : Byte) : (countDown b).toNat = b.toNat - 1 := by
  by_cases hb : b = 0
  · rw [hb]; rfl
  · rw [countDown, if_neg hb]
    bv_omega

theorem tick_toneStop_iff (t : State) : t.tick.toneStop = true ↔ t.st.toNat = 1 := by
  rw [State.tick_toneStop, decide_eq_true_iff, ← BitVec.toNat_inj]
  rfl

/-- Settles O13: the step ends in the tick of the executed state, so each clause is a law of `State.tick`. -/
theorem timerTickFollowsEveryInstruction : Obligations.TimerTickFollowsEveryInstruction := by
  intro s t w i hFetch hDecode hExec hNoFault
  refine ⟨t.tick, step_ticks_without_fault hFetch hDecode hExec hNoFault, ?_, ?_, ?_, ?_, tick_toneStop_iff t, rfl⟩
  · intro hDt
    rw [State.tick_dt, hDt, countDown_zero]
  · exact fun _ => countDown_toNat t.dt
  · intro hSt
    rw [State.tick_st, hSt, countDown_zero]
  · exact fun _ => countDown_toNat t.st

end Sys2Proof.Proofs

namespace Sys2Proof.Proofs
open Sys2Proof Sys2Proof.Machine

/-! ### The jump -/

/-- The group alone selects the jump, and its operand is the whole address field (30_encoding.md R94). -/
theorem decode_of_group_one {w : Word} (h : fieldGroup w = 0x1) : decode w = .ok (.jpAddr (fieldAddr w)) := by
  rw [decode, h]
  rfl

theorem exec_jpAddr (a : BitVec 12) (s : State) : exec (.jpAddr a) s = .next (s.setPc (zextAddr a)) := rfl

/-- Settles O18: the fields of format ADDR decide the decoding, and the execution is one update of PC. -/
theorem jpLoadsItsTarget : Obligations.JpLoadsItsTarget := by
  intro a s
  constructor
  · rw [decode_of_group_one (fieldGroup_formatAddr 0x1 a), fieldAddr_formatAddr]
  · rw [exec_jpAddr, State.setPc, zextAddr]

end Sys2Proof.Proofs

namespace Sys2Proof.Proofs
open Sys2Proof Sys2Proof.Machine

/-! ### The constant load -/

/-- The group alone selects the constant load, and its operands are the two fields of format XBYTE
(30_encoding.md R94). -/
theorem decode_of_group_six {w : Word} (h : fieldGroup w = 0x6) :
    decode w = .ok (.ldVxByte (fieldX w) (fieldByte w)) := by
  rw [decode, h]
  rfl

theorem exec_ldVxByte (x : Reg) (b : Byte) (s : State) : exec (.ldVxByte x b) s = .next (s.setV x b) := rfl

/-- Settles O24: the fields of format XBYTE decide the decoding, and the execution is one register write, whose frame
is a law of `State.setV`. -/
theorem ldVxByteLoadsTheConstant : Obligations.LdVxByteLoadsTheConstant := by
  intro x b s
  constructor
  · rw [decode_of_group_six (fieldGroup_formatXByte 0x6 x b), fieldX_formatXByte, fieldByte_formatXByte]
  · exact ⟨s.setV x b, exec_ldVxByte x b s, State.setV_getV_same s x b, State.setV_onlyRegisters s x b⟩

end Sys2Proof.Proofs

namespace Sys2Proof.Proofs
open Sys2Proof Sys2Proof.Machine

/-! ### The index load -/

/-- The group alone selects the index load, and its operand is the whole address field (30_encoding.md R94). -/
theorem decode_of_group_ten {w : Word} (h : fieldGroup w = 0xA) : decode w = .ok (.ldIAddr (fieldAddr w)) := by
  rw [decode, h]
  rfl

theorem exec_ldIAddr (a : BitVec 12) (s : State) : exec (.ldIAddr a) s = .next (s.setI (zextAddr a)) := rfl

/-- Settles O30: the fields of format ADDR decide the decoding, and the execution is one update of I. -/
theorem ldILoadsTheAddress : Obligations.LdILoadsTheAddress := by
  intro a s
  constructor
  · rw [decode_of_group_ten (fieldGroup_formatAddr 0xA a), fieldAddr_formatAddr]
  · rw [exec_ldIAddr, State.setI, zextAddr]

end Sys2Proof.Proofs

namespace Sys2Proof.Proofs
open Sys2Proof Sys2Proof.Machine

/-! ### The soft reset -/

theorem command_reset (s : State) : command .reset s = .next (s.softReset, .none) := rfl

/-- The soft reset reads only what it keeps: memory, the keys and the model's own two fields (70_reset_and_hazards.md
R311, R312). -/
theorem State.softReset_congr {s t : State} (hMem : s.mem = t.mem) (hKeys : s.keys = t.keys)
    (hDraws : s.draws = t.draws) (hCfg : s.cfg = t.cfg) : s.softReset = t.softReset := by
  rw [State.softReset, State.softReset, hMem, hKeys, hDraws, hCfg]

/-- The state after a soft reset agrees with the state before it in all that a second one reads
(70_reset_and_hazards.md R314). -/
theorem State.softReset_softReset (s : State) : s.softReset.softReset = s.softReset :=
  State.softReset_congr (State.softReset_mem s) (State.softReset_keys s) (State.softReset_draws s)
    (State.softReset_cfg s)

/-- Settles O48: the command has one outcome, what it keeps are laws of `State.softReset`, and doing it twice reads
only what the first left alone. -/
theorem softResetIsIdempotentAndKeepsMemoryAndKeys : Obligations.SoftResetIsIdempotentAndKeepsMemoryAndKeys := by
  intro s
  exact ⟨command_reset s, State.softReset_byteAt s, State.softReset_mem s, State.softReset_keys s,
    State.softReset_softReset s, State.softReset_pc s⟩

end Sys2Proof.Proofs

namespace Sys2Proof.Proofs
open Sys2Proof Sys2Proof.Machine

/-! ### Decoding an encoding, and encoding a decoding -/

/-- Settles O2: the group of the format selects the handler, its fixed bits select the row, and the operands are the
fields the format was made of. -/
theorem decodeOfEncodeIsTheInstruction : Obligations.DecodeOfEncodeIsTheInstruction := by
  intro i hWf
  cases i with
  | cls | ret => rfl
  | jpAddr | callAddr | ldIAddr | jpV0Addr | seVxByte | sneVxByte | ldVxByte | addVxByte | rndVxByte
  | seVxVy | sneVxVy =>
    simp [encode, decode]
  | ldVxVy | orVxVy | andVxVy | xorVxVy | addVxVy | subVxVy | shrVx | subnVxVy | shlVx =>
    simp [encode, decode, decodeGroup8]
  | drwVxVyN x y n =>
    have hHeight : n < 16 := of_decide_eq_true hWf
    simp [encode, decode, Nat.mod_eq_of_lt hHeight]
  | skpVx | sknpVx => simp [encode, decode, decodeGroupE]
  | ldVxDt | ldVxK | ldDtVx | ldStVx | addIVx | ldFVx | ldBVx | ldMemVx | ldVxMem =>
    simp [encode, decode, decodeGroupF]

theorem formatAddr_of_group {w : Word} {g : BitVec 4} (hg : fieldGroup w = g) : formatAddr g (fieldAddr w) = w :=
  hg ▸ formatAddr_fields w

theorem formatXByte_of_group {w : Word} {g : BitVec 4} (hg : fieldGroup w = g) :
    formatXByte g (fieldX w) (fieldByte w) = w :=
  hg ▸ formatXByte_fields w

theorem formatXByte_of_group_byte {w : Word} {g : BitVec 4} {b : Byte} (hg : fieldGroup w = g) (hb : fieldByte w = b) :
    formatXByte g (fieldX w) b = w :=
  hb ▸ formatXByte_of_group hg

theorem formatXYN_of_group_n {w : Word} {g n : BitVec 4} (hg : fieldGroup w = g) (hn : fieldN w = n) :
    formatXYN g (fieldX w) (fieldY w) n = w :=
  hg ▸ hn ▸ formatXYN_fields w

theorem encode_of_decodeGroup0 {w : Word} {i : Instr} (h : decodeGroup0 w = .ok i) :
    encode i = w ∧ i.wellFormed = true := by
  unfold decodeGroup0 at h
  split at h
  · cases h; exact ⟨Eq.symm ‹_›, rfl⟩
  · split at h
    · cases h; exact ⟨Eq.symm ‹_›, rfl⟩
    · cases h

theorem encode_of_decodeGroup8 {w : Word} {i : Instr} (hg : fieldGroup w = 0x8) (h : decodeGroup8 w = .ok i) :
    encode i = w ∧ i.wellFormed = true := by
  unfold decodeGroup8 at h
  split at h <;> cases h <;> exact ⟨formatXYN_of_group_n hg ‹_›, rfl⟩

theorem encode_of_decodeGroupE {w : Word} {i : Instr} (hg : fieldGroup w = 0xE) (h : decodeGroupE w = .ok i) :
    encode i = w ∧ i.wellFormed = true := by
  unfold decodeGroupE at h
  split at h <;> cases h <;> exact ⟨formatXByte_of_group_byte hg ‹_›, rfl⟩

theorem encode_of_decodeGroupF {w : Word} {i : Instr} (hg : fieldGroup w = 0xF) (h : decodeGroupF w = .ok i) :
    encode i = w ∧ i.wellFormed = true := by
  unfold decodeGroupF at h
  split at h <;> cases h <;> exact ⟨formatXByte_of_group_byte hg ‹_›, rfl⟩

/-- The two handlers that ask for `n = 0` (30_encoding.md R93), for any instruction of format XY. -/
theorem encode_of_zero_n {w : Word} {i j : Instr} {g : BitVec 4} (hg : fieldGroup w = g)
    (hj : encode j = formatXYN g (fieldX w) (fieldY w) 0 ∧ j.wellFormed = true)
    (h : (if fieldN w = 0#4 then Except.ok j else Except.error (DecodeReject.unknownOpcode w)) = .ok i) :
    encode i = w ∧ i.wellFormed = true := by
  split at h
  · cases h
    exact ⟨hj.1.trans (formatXYN_of_group_n hg ‹_›), hj.2⟩
  · cases h

/-- Settles O3: in each group the operands are fields of the word, and a word is put together again from its fields. -/
theorem encodeOfDecodeIsTheWord : Obligations.EncodeOfDecodeIsTheWord := by
  intro w i h
  unfold decode at h
  split at h
  case h_1 => exact encode_of_decodeGroup0 h
  case h_2 | h_3 | h_11 | h_12 => cases h; exact ⟨formatAddr_of_group ‹_›, rfl⟩
  case h_4 | h_5 | h_7 | h_8 | h_13 => cases h; exact ⟨formatXByte_of_group ‹_›, rfl⟩
  case h_6 | h_10 => exact encode_of_zero_n ‹_› ⟨rfl, rfl⟩ h
  case h_9 => exact encode_of_decodeGroup8 ‹_› h
  case h_14 =>
    cases h
    refine ⟨formatXYN_of_group_n ‹_› ?_, decide_eq_true (fieldN w).isLt⟩
    simp
  case h_15 => exact encode_of_decodeGroupE ‹_› h
  case h_16 => exact encode_of_decodeGroupF ‹_› h
  case h_17 => cases h

/-! ### The rows of the opcode map -/

theorem fieldGroup_of_and {w m p : Word} (h : w &&& m = p) (hm : fieldGroup m = 0xF) : fieldGroup w = fieldGroup p := by
  rw [← h, fieldGroup, fieldGroup, BitVec.extractLsb'_and, ← fieldGroup, ← fieldGroup, hm]
  exact BitVec.and_allOnes.symm

theorem fieldN_of_and {w m p : Word} (h : w &&& m = p) (hm : fieldN m = 0xF) : fieldN w = fieldN p := by
  rw [← h, fieldN, fieldN, BitVec.extractLsb'_and, ← fieldN, ← fieldN, hm]
  exact BitVec.and_allOnes.symm

theorem fieldByte_of_and {w m p : Word} (h : w &&& m = p) (hm : fieldByte m = 0xFF) : fieldByte w = fieldByte p := by
  rw [← h, fieldByte, fieldByte, BitVec.extractLsb'_and, ← fieldByte, ← fieldByte, hm]
  exact BitVec.and_allOnes.symm

/-- A word that matches a row has the group, and where the row fixes it the `n` or the byte, that the decoder looks
for. -/
theorem decode_of_matches {k : Instr} {w : Word} (h : (opcodeRow k).Matches w) :
    ∃ i, decode w = .ok i ∧ opcodeRow i = opcodeRow k := by
  cases k with
  | cls | ret =>
    have hw : w = _ := BitVec.and_allOnes.symm.trans h
    subst hw
    exact ⟨_, rfl, rfl⟩
  | jpAddr | callAddr | seVxByte | sneVxByte | ldVxByte | addVxByte | ldIAddr | jpV0Addr | rndVxByte | drwVxVyN =>
    simp only [OpcodeRow.Matches, opcodeRow] at h
    have hg := fieldGroup_of_and h rfl
    rw [decode, hg]
    exact ⟨_, rfl, rfl⟩
  | seVxVy | sneVxVy =>
    simp only [OpcodeRow.Matches, opcodeRow] at h
    have hg := fieldGroup_of_and h rfl
    have hn := fieldN_of_and h rfl
    rw [decode, hg]
    exact ⟨_, if_pos hn, rfl⟩
  | ldVxVy | orVxVy | andVxVy | xorVxVy | addVxVy | subVxVy | shrVx | subnVxVy | shlVx =>
    simp only [OpcodeRow.Matches, opcodeRow] at h
    have hg := fieldGroup_of_and h rfl
    have hn := fieldN_of_and h rfl
    have hd : decode w = decodeGroup8 w := by rw [decode, hg]; rfl
    rw [hd, decodeGroup8, hn]
    exact ⟨_, rfl, rfl⟩
  | skpVx | sknpVx =>
    simp only [OpcodeRow.Matches, opcodeRow] at h
    have hg := fieldGroup_of_and h rfl
    have hb := fieldByte_of_and h rfl
    have hd : decode w = decodeGroupE w := by rw [decode, hg]; rfl
    rw [hd, decodeGroupE, hb]
    exact ⟨_, rfl, rfl⟩
  | ldVxDt | ldVxK | ldDtVx | ldStVx | addIVx | ldFVx | ldBVx | ldMemVx | ldVxMem =>
    simp only [OpcodeRow.Matches, opcodeRow] at h
    have hg := fieldGroup_of_and h rfl
    have hb := fieldByte_of_and h rfl
    have hd : decode w = decodeGroupF w := by rw [decode, hg]; rfl
    rw [hd, decodeGroupF, hb]
    exact ⟨_, rfl, rfl⟩

theorem encode_matches (i : Instr) : (opcodeRow i).Matches (encode i) := by
  cases i with
  | cls | ret => rfl
  | jpAddr | callAddr | ldIAddr | jpV0Addr => exact Laws.formatAddr_mask _ _
  | seVxByte | sneVxByte | ldVxByte | addVxByte | rndVxByte => exact Laws.formatXByte_mask _ _ _
  | drwVxVyN => exact Laws.formatXYN_mask _ _ _ _
  | seVxVy | sneVxVy | ldVxVy | orVxVy | andVxVy | xorVxVy | addVxVy | subVxVy | shrVx | subnVxVy | shlVx =>
    exact Laws.formatXY_mask _ _ _ _
  | skpVx | sknpVx | ldVxDt | ldVxK | ldDtVx | ldStVx | addIVx | ldFVx | ldBVx | ldMemVx | ldVxMem =>
    exact Laws.formatX_mask _ _ _

theorem opcodeRow_injOn_opcodeMap : ∀ k ∈ opcodeMap, ∀ l ∈ opcodeMap, opcodeRow k = opcodeRow l → k = l := by
  decide

/-- Settles O4: a match fixes the fields the decoder looks at, and decoding gives back the word of the row. Two rows
that a word matches are then the row of the one instruction it decodes to. -/
theorem wordIsAnInstructionExactlyWhenItMatchesItsRow :
    Obligations.WordIsAnInstructionExactlyWhenItMatchesItsRow := by
  refine ⟨rfl, fun w k hk => ⟨⟨decode_of_matches, ?_⟩, fun l hl hMatchK hMatchL => ?_⟩⟩
  · rintro ⟨i, hDecode, hRow⟩
    obtain ⟨hEncode, -⟩ := encodeOfDecodeIsTheWord w i hDecode
    exact hRow ▸ hEncode ▸ encode_matches i
  · obtain ⟨i, hDecodeI, hRowI⟩ := decode_of_matches hMatchK
    obtain ⟨j, hDecodeJ, hRowJ⟩ := decode_of_matches hMatchL
    have hij : i = j := Except.ok.inj (hDecodeI.symm.trans hDecodeJ)
    exact opcodeRow_injOn_opcodeMap k hk l hl (hRowI.symm.trans (hij ▸ hRowJ))

/-! ### The illegal words -/

theorem decodeGroup0_rejects_iff (w : Word) :
    decodeGroup0 w = .error (.unknownOpcode w) ↔ w ≠ 0x00E0 ∧ w ≠ 0x00EE := by
  unfold decodeGroup0
  split
  · simp_all
  · split <;> simp_all

theorem decodeGroup8_rejects_iff (w : Word) :
    decodeGroup8 w = .error (.unknownOpcode w) ↔
      fieldN w ∈ [0x8#4, 0x9#4, 0xA#4, 0xB#4, 0xC#4, 0xD#4, 0xF#4] := by
  unfold decodeGroup8
  split
  case h_10 => simp_all; bv_omega
  all_goals simp_all

theorem decodeGroupE_rejects_iff (w : Word) :
    decodeGroupE w = .error (.unknownOpcode w) ↔ fieldByte w ∉ [0x9E#8, 0xA1#8] := by
  unfold decodeGroupE
  split <;> simp_all

theorem decodeGroupF_rejects_iff (w : Word) :
    decodeGroupF w = .error (.unknownOpcode w) ↔
      fieldByte w ∉ [0x07#8, 0x0A#8, 0x15#8, 0x18#8, 0x1E#8, 0x29#8, 0x33#8, 0x55#8, 0x65#8] := by
  unfold decodeGroupF
  split <;> simp_all

/-- Settles O5: one handler after the other; ten of the sixteen accept every word of their group. -/
theorem illegalWordsAreExactlyTheListedOnes : Obligations.IllegalWordsAreExactlyTheListedOnes := by
  intro w
  unfold decode
  split
  case h_1 => simp [decodeGroup0_rejects_iff, *]
  case h_9 => simp [decodeGroup8_rejects_iff, *]
  case h_15 => simp [decodeGroupE_rejects_iff, *]
  case h_16 => simp [decodeGroupF_rejects_iff, *]
  case h_17 =>
    exfalso
    generalize fieldGroup w = g at *
    revert g
    decide
  all_goals simp [*]

/-- Settles O1: each word is a closed case of the decoder. -/
theorem decodeReadsTheSpecsWords : Obligations.DecodeReadsTheSpecsWords :=
  ⟨rfl, rfl, rfl, rfl, rfl, rfl, rfl, rfl, rfl, rfl, rfl, rfl, rfl⟩

end Sys2Proof.Proofs

namespace Sys2Proof.Proofs
open Sys2Proof Sys2Proof.Machine

/-! ### What the shared operations leave unchanged -/

/-- A run of stores writes memory, and the latch if it meets the end of memory. -/
theorem storeBytes_frame (s : State) (a : Nat) (bs : List Byte) :
    s.storeBytes a bs =
      { s with mem := (s.storeBytes a bs).mem, faulted := (s.storeBytes a bs).faulted
               faultCode := (s.storeBytes a bs).faultCode, faultInfo := (s.storeBytes a bs).faultInfo } := by
  rw [State.storeBytes_eq]
  split <;> rfl

/-- A run of loads writes registers, and the latch if it meets the end of memory. -/
theorem loadRegs_frame (s : State) (a : Nat) (rs : List Reg) :
    s.loadRegs a rs =
      { s with v := (s.loadRegs a rs).v, faulted := (s.loadRegs a rs).faulted
               faultCode := (s.loadRegs a rs).faultCode, faultInfo := (s.loadRegs a rs).faultInfo } := by
  rw [State.loadRegs_eq]
  split
  · rw [State.loadAll_rest]
  · rw [State.loadAll_rest]
    rfl

/-- The bytes of a run of stores: what lies in the run and in memory is stored, whether or not the run fits
(60_exceptions.md R275). -/
theorem storeBytes_byteAt {s : State} (a : Nat) (bs : List Byte) (k : Nat) (hWf : Memory.wf s.cfg s.mem) :
    (s.storeBytes a bs).byteAt k =
      if a ≤ k ∧ k < a + bs.length ∧ k < s.cfg.memSize then bs.getD (k - a) 0 else s.byteAt k := by
  rw [State.storeBytes_eq]
  by_cases hRoom : bs.length ≤ s.room a
  · have hFits : a + bs.length ≤ s.cfg.memSize ∨ bs = [] := by
      cases bs with
      | nil => exact .inr rfl
      | cons b bs => simp only [State.room, List.length_cons] at hRoom ⊢; omega
    rw [if_pos hRoom, State.writeAll_byteAt s bs k hWf hFits]
    have hIn : (a ≤ k ∧ k < a + bs.length) ↔ (a ≤ k ∧ k < a + bs.length ∧ k < s.cfg.memSize) := by
      simp only [State.room] at hRoom; omega
    simp only [hIn]
  · rw [if_neg hRoom, State.raise_byteAt, State.writeAll_byteAt s _ k hWf (State.take_room_fits s a bs)]
    have hIn : (a ≤ k ∧ k < a + (bs.take (s.room a)).length) ↔ (a ≤ k ∧ k < a + bs.length ∧ k < s.cfg.memSize) := by
      simp only [State.room, List.length_take] at hRoom ⊢; omega
    simp only [hIn]
    split
    · have hTaken : k - a < s.room a := by simp only [State.room]; omega
      simp only [List.getD_eq_getElem?_getD, List.getElem?_take_of_lt hTaken]
    · rfl

theorem storeBytes_wf {s : State} (a : Nat) (bs : List Byte) (hWf : Memory.wf s.cfg s.mem) :
    Memory.wf s.cfg (s.storeBytes a bs).mem := by
  rw [State.storeBytes_eq]
  split
  next hRoom =>
    refine Memory.writeAll_wf bs hWf ?_
    cases bs with
    | nil => exact .inr rfl
    | cons b bs => simp only [State.room, List.length_cons] at hRoom ⊢; omega
  next => exact Memory.writeAll_wf _ hWf (State.take_room_fits s a bs)

/-- The registers of a run of loads: those whose address exists are loaded, whether or not the run does
(60_exceptions.md R275). -/
theorem loadRegs_getV (s : State) (a : Nat) (x q : Reg) :
    (s.loadRegs a (regsThrough x)).getV q =
      if q ≤ x ∧ a + q.val < s.cfg.memSize then s.byteAt (a + q.val) else s.getV q := by
  rw [State.loadRegs_eq, regsThrough_length]
  by_cases hRoom : x.val + 1 ≤ s.room a
  · rw [if_pos hRoom, regsThrough, State.loadAll_regs_getV]
    have hIn : q.val < x.val + 1 ↔ q ≤ x ∧ a + q.val < s.cfg.memSize := by
      simp only [State.room, Fin.le_def] at hRoom ⊢; omega
    simp only [hIn]
  · rw [if_neg hRoom, State.raise_getV, regsThrough, List.take_take, State.loadAll_regs_getV]
    have hIn : q.val < min (s.room a) (x.val + 1) ↔ q ≤ x ∧ a + q.val < s.cfg.memSize := by
      simp only [State.room, Fin.le_def] at hRoom ⊢; omega
    simp only [hIn]

theorem skipIf_frame (s : State) (c : Bool) : s.skipIf c = { s with pc := (s.skipIf c).pc } := by
  cases c <;> rfl

theorem skipIf_pc (s : State) (c : Bool) : (s.skipIf c).pc = s.pc ∨ (s.skipIf c).pc = s.pc + 2 := by
  cases c
  · exact .inl rfl
  · exact .inr rfl

/-- Drawing writes registers and cells. -/
theorem frame_of_draws {p : Fin 32 → Fin 64 → Bool} {s t : State} (h : Draws p s t) :
    t = { s with v := t.v, disp := t.disp } := by
  have hv : t.v = s.v.set 15 (t.getV regVF) := congrArg State.v h.rest
  rw [hv]
  exact h.rest

theorem getV_of_draws {p : Fin 32 → Fin 64 → Bool} {s t : State} {r : Reg} (h : Draws p s t) (hr : r ≠ regVF) :
    t.getV r = s.getV r := by
  rw [h.rest]
  exact State.setV_getV_other s _ hr.symm

/-- A sprite whose bytes all exist, drawn by `DXYN` (44_display.md R211). -/
def drawn (x y : Reg) (n : Nat) (s : State) : State :=
  drawRows (s.getV x).toNat (s.getV y).toNat 0 ((List.range' (s.effectiveAddress 0) n).map s.byteAt) (s.setV regVF 0)

theorem drawn_draws (x y : Reg) (n : Nat) (s : State) :
    Draws (spritePixel (s.getV x).toNat (s.getV y).toNat n (fun j => s.byteAt (s.effectiveAddress j)))
      (s.setV regVF 0) (drawn x y n s) :=
  drawSprite_draws _ _ _ _ s (s.setV regVF 0)

theorem drawn_frame (x y : Reg) (n : Nat) (s : State) :
    drawn x y n s = { s with v := (drawn x y n s).v, disp := (drawn x y n s).disp } := by
  have h := frame_of_draws (drawn_draws x y n s)
  exact h

/-! ### The branches of the instructions that have more than one -/

theorem exec_ret_nil {s : State} (h : s.stack = []) : exec .ret s = .next (s.raise .stackUnderflow) := by
  simp only [exec, execRet, State.pop_nil h]

theorem exec_ret_cons {s : State} {a : Word} {rest : List Word} (h : s.stack = a :: rest) :
    exec .ret s = .next { s with stack := rest, pc := a } := by
  simp only [exec, execRet, State.pop_cons h, State.setPc]

theorem exec_callAddr_room {s : State} (a : BitVec 12) (h : s.stack.length < s.cfg.stackLimit) :
    exec (.callAddr a) s = .next { s with stack := s.pc :: s.stack, pc := zextAddr a } := by
  simp only [exec, execCallAddr, State.push_eq, if_pos h, State.setPc]

theorem exec_callAddr_full {s : State} (a : BitVec 12) (h : ¬s.stack.length < s.cfg.stackLimit) :
    exec (.callAddr a) s = .next (s.raise .stackOverflow) := by
  simp only [exec, execCallAddr, State.push_eq, if_neg h]

theorem exec_drwVxVyN_room {s : State} (x y : Reg) {n : Nat} (h : n ≤ s.room (s.effectiveAddress 0)) :
    exec (.drwVxVyN x y n) s = .next { drawn x y n s with dirty := true } := by
  simp only [exec, execDrwVxVyN, State.readBytes_eq, if_pos h, drawn]

theorem exec_drwVxVyN_fault {s : State} (x y : Reg) {n : Nat} (h : ¬n ≤ s.room (s.effectiveAddress 0)) :
    exec (.drwVxVyN x y n) s =
      .next (s.raise (.addressOutOfRange (s.effectiveAddress 0 + s.room (s.effectiveAddress 0)))) := by
  simp only [exec, execDrwVxVyN, State.readBytes_eq, if_neg h]

theorem exec_ldVxK_none {s : State} (x : Reg) (h : lowestKey s.keys = none) :
    exec (.ldVxK x) s = .next { s with pc := s.pc - 2 } := by
  simp only [exec, execLdVxK, h, State.setPc]

theorem exec_ldVxK_some {s : State} (x : Reg) {k : Nat} (h : lowestKey s.keys = some k) :
    exec (.ldVxK x) s = .next (s.setV x (BitVec.ofNat 8 k)) := by
  simp only [exec, execLdVxK, h]

/-! ### The state an instruction leaves -/

/-- The state after the Execute phase; the other two outcomes never come about (`exec_eq_next`). -/
def executed (i : Instr) (s : State) : State :=
  match exec i s with
  | .next t => t
  | .fault _ => s
  | .refused _ => s

theorem executed_of_exec {i : Instr} {s t : State} (h : exec i s = .next t) : executed i s = t := by
  rw [executed, h]

/-- Every instruction ends in a next state (40_step_cycle.md R120, log 3). -/
theorem exec_eq_next (i : Instr) (s : State) : exec i s = .next (executed i s) := by
  suffices h : ∃ t, exec i s = .next t by
    obtain ⟨t, ht⟩ := h
    rw [executed_of_exec ht, ht]
  cases i with
  | ret =>
    cases hs : s.stack with
    | nil => exact ⟨_, exec_ret_nil hs⟩
    | cons a rest => exact ⟨_, exec_ret_cons hs⟩
  | callAddr a =>
    by_cases h : s.stack.length < s.cfg.stackLimit
    · exact ⟨_, exec_callAddr_room a h⟩
    · exact ⟨_, exec_callAddr_full a h⟩
  | drwVxVyN x y n =>
    by_cases h : n ≤ s.room (s.effectiveAddress 0)
    · exact ⟨_, exec_drwVxVyN_room x y h⟩
    · exact ⟨_, exec_drwVxVyN_fault x y h⟩
  | ldVxK x =>
    cases h : lowestKey s.keys with
    | none => exact ⟨_, exec_ldVxK_none x h⟩
    | some k => exact ⟨_, exec_ldVxK_some x h⟩
  | _ => exact ⟨_, rfl⟩

theorem eq_executed {i : Instr} {s t : State} (h : exec i s = .next t) : t = executed i s :=
  (executed_of_exec h).symm

/-! ### The frame of every instruction -/

/-- `s` with the pieces of state that the instruction may write taken from `t` (10_state.md R20 to R40). -/
def withWrites (i : Instr) (s t : State) : State :=
  match i with
  | .cls => { s with disp := t.disp, dirty := t.dirty }
  | .ret | .callAddr _ =>
    { s with pc := t.pc, stack := t.stack, faulted := t.faulted, faultCode := t.faultCode, faultInfo := t.faultInfo }
  | .jpAddr _ | .jpV0Addr _ | .seVxByte _ _ | .sneVxByte _ _ | .seVxVy _ _ | .sneVxVy _ _ | .skpVx _ | .sknpVx _ =>
    { s with pc := t.pc }
  | .ldVxByte _ _ | .addVxByte _ _ | .ldVxVy _ _ | .orVxVy _ _ | .andVxVy _ _ | .xorVxVy _ _ | .addVxVy _ _
  | .subVxVy _ _ | .shrVx _ _ | .subnVxVy _ _ | .shlVx _ _ | .ldVxDt _ => { s with v := t.v }
  | .rndVxByte _ _ => { s with v := t.v, draws := t.draws }
  | .drwVxVyN _ _ _ =>
    { s with v := t.v, disp := t.disp, dirty := t.dirty
             faulted := t.faulted, faultCode := t.faultCode, faultInfo := t.faultInfo }
  | .ldVxK _ => { s with v := t.v, pc := t.pc }
  | .ldDtVx _ => { s with dt := t.dt }
  | .ldStVx _ => { s with st := t.st }
  | .ldIAddr _ | .addIVx _ | .ldFVx _ => { s with i := t.i }
  | .ldBVx _ | .ldMemVx _ =>
    { s with mem := t.mem, faulted := t.faulted, faultCode := t.faultCode, faultInfo := t.faultInfo }
  | .ldVxMem _ => { s with v := t.v, faulted := t.faulted, faultCode := t.faultCode, faultInfo := t.faultInfo }

/-- An instruction writes nothing but its pieces of state. -/
theorem executed_frame (i : Instr) (s : State) : executed i s = withWrites i s (executed i s) := by
  cases i with
  | ret =>
    cases hs : s.stack with
    | nil => rw [executed_of_exec (exec_ret_nil hs)]; rfl
    | cons a rest => rw [executed_of_exec (exec_ret_cons hs)]; rfl
  | callAddr a =>
    by_cases h : s.stack.length < s.cfg.stackLimit
    · rw [executed_of_exec (exec_callAddr_room a h)]; rfl
    · rw [executed_of_exec (exec_callAddr_full a h)]; rfl
  | seVxByte | sneVxByte | seVxVy | sneVxVy | skpVx | sknpVx =>
    exact skipIf_frame s _
  | drwVxVyN x y n =>
    by_cases h : n ≤ s.room (s.effectiveAddress 0)
    · rw [executed_of_exec (exec_drwVxVyN_room x y h), drawn_frame]; rfl
    · rw [executed_of_exec (exec_drwVxVyN_fault x y h)]; rfl
  | ldVxK x =>
    cases h : lowestKey s.keys with
    | none => rw [executed_of_exec (exec_ldVxK_none x h)]; rfl
    | some k => rw [executed_of_exec (exec_ldVxK_some x h)]; rfl
  | ldBVx | ldMemVx => exact storeBytes_frame s _ _
  | ldVxMem => exact loadRegs_frame s _ _
  | _ => rfl

/-! ### One piece of state after another -/

theorem mem_regsThrough {x r : Reg} (h : r ≤ x) : r ∈ regsThrough x := by
  have hr : r.val < (regsThrough x).length := by rw [regsThrough_length]; exact Nat.lt_succ_of_le h
  exact regsThrough_getElem x r hr ▸ List.getElem_mem hr

theorem executed_getV {i : Instr} (s : State) {r : Reg} (h : r ∉ registersWritten i) :
    (executed i s).getV r = s.getV r := by
  cases i with
  | ldVxByte | addVxByte | ldVxVy | orVxVy | andVxVy | xorVxVy | ldVxDt | rndVxByte =>
    exact (State.setV_onlyRegisters s _ _).regs r h
  | addVxVy | subVxVy | shrVx | subnVxVy | shlVx =>
    exact (State.setFlagThenResult_onlyRegisters s _ _ _).regs r h
  | ldVxK x =>
    cases hk : lowestKey s.keys with
    | none => rw [executed_of_exec (exec_ldVxK_none x hk)]; rfl
    | some k =>
      rw [executed_of_exec (exec_ldVxK_some x hk)]
      exact (State.setV_onlyRegisters s x _).regs r h
  | drwVxVyN x y n =>
    have hr : r ≠ regVF := fun hr => h (hr ▸ List.mem_cons_self)
    by_cases hn : n ≤ s.room (s.effectiveAddress 0)
    · rw [executed_of_exec (exec_drwVxVyN_room x y hn)]
      exact (getV_of_draws (drawn_draws x y n s) hr).trans (State.setV_getV_other s 0 hr.symm)
    · rw [executed_of_exec (exec_drwVxVyN_fault x y hn)]; rfl
  | ldVxMem x =>
    have hr : ¬r ≤ x := fun hr => h (mem_regsThrough hr)
    exact (loadRegs_getV s _ x r).trans (if_neg fun hIn => hr hIn.1)
  | _ => rw [executed_frame]; rfl

theorem executed_i {i : Instr} (s : State) (hLd : ∀ a, i ≠ .ldIAddr a) (hAdd : ∀ x, i ≠ .addIVx x)
    (hGlyph : ∀ x, i ≠ .ldFVx x) : (executed i s).i = s.i := by
  rw [executed_frame]
  cases i with
  | ldIAddr a => exact absurd rfl (hLd a)
  | addIVx x => exact absurd rfl (hAdd x)
  | ldFVx x => exact absurd rfl (hGlyph x)
  | _ => rfl

theorem executed_stack {i : Instr} (s : State) (hRet : i ≠ .ret) (hCall : ∀ a, i ≠ .callAddr a) :
    (executed i s).stack = s.stack := by
  rw [executed_frame]
  cases i with
  | ret => exact absurd rfl hRet
  | callAddr a => exact absurd rfl (hCall a)
  | _ => rfl

theorem executed_dt {i : Instr} (s : State) (h : ∀ x, i ≠ .ldDtVx x) : (executed i s).dt = s.dt := by
  rw [executed_frame]
  cases i with
  | ldDtVx x => exact absurd rfl (h x)
  | _ => rfl

theorem executed_st {i : Instr} (s : State) (h : ∀ x, i ≠ .ldStVx x) : (executed i s).st = s.st := by
  rw [executed_frame]
  cases i with
  | ldStVx x => exact absurd rfl (h x)
  | _ => rfl

theorem executed_mem {i : Instr} (s : State) (hBcd : ∀ x, i ≠ .ldBVx x) (hStore : ∀ x, i ≠ .ldMemVx x) :
    (executed i s).mem = s.mem := by
  rw [executed_frame]
  cases i with
  | ldBVx x => exact absurd rfl (hBcd x)
  | ldMemVx x => exact absurd rfl (hStore x)
  | _ => rfl

theorem executed_display {i : Instr} (s : State) (hCls : i ≠ .cls) (hDrw : ∀ x y n, i ≠ .drwVxVyN x y n) :
    (executed i s).disp = s.disp ∧ (executed i s).dirty = s.dirty := by
  rw [executed_frame]
  cases i with
  | cls => exact absurd rfl hCls
  | drwVxVyN x y n => exact absurd rfl (hDrw x y n)
  | _ => exact ⟨rfl, rfl⟩

theorem executed_draws {i : Instr} (s : State) (h : ∀ x b, i ≠ .rndVxByte x b) : (executed i s).draws = s.draws := by
  rw [executed_frame]
  cases i with
  | rndVxByte x b => exact absurd rfl (h x b)
  | _ => rfl

/-- The fault latch reads as before. -/
def SameLatch (s t : State) : Prop :=
  t.faulted = s.faulted ∧ t.faultCode = s.faultCode ∧ t.faultInfo = s.faultInfo

theorem executed_latch {i : Instr} (s : State) (hRet : i ≠ .ret) (hCall : ∀ a, i ≠ .callAddr a)
    (hDrw : ∀ x y n, i ≠ .drwVxVyN x y n) (hBcd : ∀ x, i ≠ .ldBVx x) (hStore : ∀ x, i ≠ .ldMemVx x)
    (hLoad : ∀ x, i ≠ .ldVxMem x) : SameLatch s (executed i s) := by
  rw [executed_frame]
  cases i with
  | ret => exact absurd rfl hRet
  | callAddr a => exact absurd rfl (hCall a)
  | drwVxVyN x y n => exact absurd rfl (hDrw x y n)
  | ldBVx x => exact absurd rfl (hBcd x)
  | ldMemVx x => exact absurd rfl (hStore x)
  | ldVxMem x => exact absurd rfl (hLoad x)
  | _ => exact ⟨rfl, rfl, rfl⟩

@[simp] theorem executed_sp (i : Instr) (s : State) : (executed i s).sp = s.sp := by
  rw [executed_frame]
  cases i <;> rfl

@[simp] theorem executed_keys (i : Instr) (s : State) : (executed i s).keys = s.keys := by
  rw [executed_frame]
  cases i <;> rfl

@[simp] theorem executed_ir (i : Instr) (s : State) : (executed i s).ir = s.ir := by
  rw [executed_frame]
  cases i <;> rfl

@[simp] theorem executed_toneStop (i : Instr) (s : State) : (executed i s).toneStop = s.toneStop := by
  rw [executed_frame]
  cases i <;> rfl

@[simp] theorem executed_cfg (i : Instr) (s : State) : (executed i s).cfg = s.cfg := by
  rw [executed_frame]
  cases i <;> rfl

/-- The three ways in which an instruction other than the jumps, the call and the return leaves PC. -/
theorem executed_pc_cases {i : Instr} (s : State) (hRet : i ≠ .ret) (hJp : ∀ a, i ≠ .jpAddr a)
    (hCall : ∀ a, i ≠ .callAddr a) (hJpV0 : ∀ a, i ≠ .jpV0Addr a) :
    (executed i s).pc = s.pc ∨
    ((executed i s).pc = s.pc + 2 ∧ ((∃ x b, i = .seVxByte x b ∨ i = .sneVxByte x b) ∨
      (∃ x y, i = .seVxVy x y ∨ i = .sneVxVy x y) ∨ ∃ x, i = .skpVx x ∨ i = .sknpVx x)) ∨
    ((executed i s).pc = s.pc - 2 ∧ s.keys = 0 ∧ ∃ x, i = .ldVxK x) := by
  cases i with
  | ret => exact absurd rfl hRet
  | jpAddr a => exact absurd rfl (hJp a)
  | callAddr a => exact absurd rfl (hCall a)
  | jpV0Addr a => exact absurd rfl (hJpV0 a)
  | seVxByte x b | sneVxByte x b =>
    exact (skipIf_pc s _).imp id fun h => .inl ⟨h, .inl ⟨x, b, by simp⟩⟩
  | seVxVy x y | sneVxVy x y =>
    exact (skipIf_pc s _).imp id fun h => .inl ⟨h, .inr (.inl ⟨x, y, by simp⟩)⟩
  | skpVx x | sknpVx x =>
    exact (skipIf_pc s _).imp id fun h => .inl ⟨h, .inr (.inr ⟨x, by simp⟩)⟩
  | ldVxK x =>
    cases hk : lowestKey s.keys with
    | none =>
      rw [executed_of_exec (exec_ldVxK_none x hk)]
      exact .inr (.inr ⟨rfl, lowestKey_eq_none.mp hk, x, rfl⟩)
    | some k =>
      rw [executed_of_exec (exec_ldVxK_some x hk)]
      exact .inl rfl
  | _ => rw [executed_frame]; exact .inl rfl

/-- Settles O53: each clause reads one field off the frame of the instruction. -/
theorem eachPieceOfStateHasItsWriters : Obligations.EachPieceOfStateHasItsWriters := by
  intro i s t hExec
  obtain rfl := eq_executed hExec
  refine ⟨fun r => executed_getV s, executed_i s, ?_, executed_stack s, executed_dt s, executed_st s, ?_,
    executed_display s, executed_latch s, executed_draws s, executed_sp i s, executed_keys i s, executed_ir i s,
    executed_toneStop i s, executed_cfg i s⟩
  · intro hRet hJp hCall hJpV0 hSe hSne hSeV hSneV hSkp hSknp hKey
    have hPc := executed_pc_cases s hRet hJp hCall hJpV0
    simpa [hSe, hSne, hSeV, hSneV, hSkp, hSknp, hKey] using hPc
  · intro hBcd hStore
    have hMem := executed_mem s hBcd hStore
    exact ⟨hMem, fun k => by rw [State.byteAt, State.byteAt, hMem, executed_cfg]⟩

/-- Settles O23: the three ways of leaving PC. -/
theorem pcMovesOnlyAsTheInstructionSays : Obligations.PcMovesOnlyAsTheInstructionSays := by
  intro i s t hExec hRet hJp hCall hJpV0
  obtain rfl := eq_executed hExec
  exact executed_pc_cases s hRet hJp hCall hJpV0

end Sys2Proof.Proofs

namespace Sys2Proof.Proofs
open Sys2Proof Sys2Proof.Machine

/-! ### The four kinds of step, each with its state -/

theorem step_of_halted {s : State} (h : s.faulted = true) : step s = .next s := by
  rw [step, State.prepare_halted h]

theorem step_of_fetch_fault {s : State} {f : Fault} (h : s.faulted = false) (hFetch : s.fetch = .error f) :
    step s = .next (s.beginStep.raise f) := by
  rw [step, State.prepare_fetch_fault h hFetch]

theorem step_of_illegal {s : State} {w : Word} {e : DecodeReject} (h : s.faulted = false) (hFetch : s.fetch = .ok w)
    (hDecode : decode w = .error e) : step s = .next ((s.beginStep.advance w).raise (.unknownOpcode w)) := by
  rw [step, State.prepare_illegal h hFetch hDecode]

/-- An instruction executed on the prepared state, and the tick unless it raised a fault. -/
def stepped (i : Instr) (s : State) : State := if (executed i s).faulted then executed i s else (executed i s).tick

theorem step_of_legal {s : State} {w : Word} {i : Instr} (h : s.faulted = false) (hFetch : s.fetch = .ok w)
    (hDecode : decode w = .ok i) : step s = .next (stepped i (s.beginStep.advance w)) := by
  rw [step, State.prepare_legal h hFetch hDecode]
  exact congrArg complete (exec_eq_next i _)

/-- What an instruction ensures and the tick keeps, the step ensures. -/
theorem stepped_of_executed {P : State → Prop} {i : Instr} {s : State} (hTick : ∀ t, P t → P t.tick)
    (h : P (executed i s)) : P (stepped i s) := by
  unfold stepped
  split
  · exact h
  · exact hTick _ h

/-- Everything a step can do, `step_cases` with every instruction's next state. -/
theorem step_next_cases {s t : State} (hStep : step s = .next t) :
    (s.faulted = true ∧ t = s) ∨
    (s.faulted = false ∧ ∃ f, s.fetch = .error f ∧ t = s.beginStep.raise f) ∨
    (s.faulted = false ∧ ∃ w e, s.fetch = .ok w ∧ decode w = .error e ∧
      t = (s.beginStep.advance w).raise (.unknownOpcode w)) ∨
    (s.faulted = false ∧ ∃ w i, s.fetch = .ok w ∧ decode w = .ok i ∧ t = stepped i (s.beginStep.advance w)) := by
  rcases step_cases s with ⟨h, hs⟩ | ⟨h, f, hf, hs⟩ | ⟨h, w, e, hf, hd, hs⟩ | ⟨h, w, i, hf, hd, hs⟩
  · exact .inl ⟨h, Host.Outcome.next.inj (hStep.symm.trans hs)⟩
  · exact .inr (.inl ⟨h, f, hf, Host.Outcome.next.inj (hStep.symm.trans hs)⟩)
  · exact .inr (.inr (.inl ⟨h, w, e, hf, hd, Host.Outcome.next.inj (hStep.symm.trans hs)⟩))
  · exact .inr (.inr (.inr ⟨h, w, i, hf, hd, Host.Outcome.next.inj (hStep.symm.trans (step_of_legal h hf hd))⟩))

theorem step_total (s : State) : ∃ t, step s = .next t := by
  rcases step_cases s with ⟨-, hs⟩ | ⟨-, f, -, hs⟩ | ⟨-, w, e, -, -, hs⟩ | ⟨h, w, i, hf, hd, -⟩
  · exact ⟨_, hs⟩
  · exact ⟨_, hs⟩
  · exact ⟨_, hs⟩
  · exact ⟨_, step_of_legal h hf hd⟩

theorem command_step {s t : State} (h : step s = .next t) : command .step s = .next (t, .stepped t.stepResult) := by
  simp only [command, h]

/-- Settles O10: the four kinds of step each give a next state, and the reply is read off its latch. -/
theorem everyStepEndsInANextState : Obligations.EveryStepEndsInANextState := by
  intro s
  obtain ⟨t, hStep⟩ := step_total s
  exact ⟨t, hStep, command_step hStep⟩

/-- Settles O9: the prepared state is the one the statement writes out. -/
theorem stepExecutesTheDecodedInstruction : Obligations.StepExecutesTheDecodedInstruction := by
  intro s w i hFetch hDecode
  rw [step_of_legal_word hFetch hDecode]
  rfl

/-- Settles O14: the halted core is the first kind of step. -/
theorem haltedStepChangesNothing : Obligations.HaltedStepChangesNothing := by
  intro s h
  have hStep := step_of_halted h
  refine ⟨hStep, ?_⟩
  rw [command_step hStep, State.stepResult, if_pos h]

/-- Settles O12: the third kind of step, on the prepared state the statement writes out. -/
theorem illegalWordRaisesUnknownOpcode : Obligations.IllegalWordRaisesUnknownOpcode := by
  intro s w hFetch hDecode
  exact step_of_illegal hFetch.1 (fetch_of_fetchesWord hFetch) hDecode

/-- Settles O11: which of the two reads of the fetch fails. -/
theorem fetchBeyondMemoryRaisesAndKeepsPcAndIr : Obligations.FetchBeyondMemoryRaisesAndKeepsPcAndIr := by
  intro s h
  constructor
  · intro hBeyond
    have hFetch : s.fetch = .error (.addressOutOfRange s.pc.toNat) := by
      rw [State.fetch_eq, if_neg (by omega), if_neg (by omega)]
    exact step_of_fetch_fault h hFetch
  · intro hLast
    have hFetch : s.fetch = .error (.addressOutOfRange s.cfg.memSize) := by
      rw [State.fetch_eq, if_neg (by omega), if_pos (by omega), hLast]
    exact step_of_fetch_fault h hFetch

/-- Settles O15: 17 bits hold an address up to 0x1000E and any word. -/
theorem raisingRecordsCodeAndInformation : Obligations.RaisingRecordsCodeAndInformation := by
  intro s a w ha
  refine ⟨⟨_, rfl, ?_, rfl⟩, ⟨_, rfl, ?_, rfl⟩, rfl, rfl⟩
  · exact (BitVec.toNat_ofNat a 17).trans (Nat.mod_eq_of_lt (by omega))
  · exact BitVec.toNat_setWidth_of_le (by decide)

/-! ### What no instruction reads: IR, SP, ST, tone_stop, dirty -/

/-- The state with other values in the five pieces of state that no instruction reads. -/
def withUnread (s : State) (ir sp : Word) (st : Byte) (tone dirty : Bool) : State :=
  { s with ir := ir, sp := sp, st := st, toneStop := tone, dirty := dirty }

section
variable (ir sp : Word) (st : Byte) (tone dirty : Bool)

theorem skipIf_withUnread (s : State) (c : Bool) :
    (withUnread s ir sp st tone dirty).skipIf c = withUnread (s.skipIf c) ir sp st tone dirty := by
  cases c <;> rfl

theorem loadAll_withUnread (s : State) (a : Nat) (rs : List Reg) :
    (withUnread s ir sp st tone dirty).loadAll a rs = withUnread (s.loadAll a rs) ir sp st tone dirty := by
  induction rs generalizing s a with
  | nil => rfl
  | cons r rs ih => exact ih (s.setV r (s.byteAt a)) (a + 1)

theorem storeBytes_withUnread (s : State) (a : Nat) (bs : List Byte) :
    (withUnread s ir sp st tone dirty).storeBytes a bs = withUnread (s.storeBytes a bs) ir sp st tone dirty := by
  rw [State.storeBytes_eq, State.storeBytes_eq]
  by_cases h : bs.length ≤ s.room a
  · rw [if_pos h]; exact if_pos h
  · rw [if_neg h]; exact if_neg h

theorem loadRegs_withUnread (s : State) (a : Nat) (rs : List Reg) :
    (withUnread s ir sp st tone dirty).loadRegs a rs = withUnread (s.loadRegs a rs) ir sp st tone dirty := by
  rw [State.loadRegs_eq, State.loadRegs_eq, loadAll_withUnread, loadAll_withUnread]
  by_cases h : rs.length ≤ s.room a
  · rw [if_pos h]; exact if_pos h
  · rw [if_neg h]; exact if_neg h

theorem drawPixel_withUnread (vx vy row bit : Nat) (p : Bool) (s : State) :
    drawPixel vx vy row bit p (withUnread s ir sp st tone dirty) =
      withUnread (drawPixel vx vy row bit p s) ir sp st tone dirty := by
  unfold drawPixel
  by_cases h : vy + row < 32 ∧ vx + bit < 64
  · rw [dif_pos h, dif_pos h]
    have hCell : ∀ r c, (withUnread s ir sp st tone dirty).cell r c = s.cell r c := fun _ _ => rfl
    simp only [hCell]
    split <;> rfl
  · rw [dif_neg h, dif_neg h]

theorem drawBits_withUnread (vx vy row : Nat) (b : Byte) (bit k : Nat) (s : State) :
    drawBits vx vy row b bit k (withUnread s ir sp st tone dirty) =
      withUnread (drawBits vx vy row b bit k s) ir sp st tone dirty := by
  induction k generalizing bit s with
  | zero => rfl
  | succ k ih => rw [drawBits, drawBits, drawPixel_withUnread, ih]

theorem drawRows_withUnread (vx vy row : Nat) (bs : List Byte) (s : State) :
    drawRows vx vy row bs (withUnread s ir sp st tone dirty) =
      withUnread (drawRows vx vy row bs s) ir sp st tone dirty := by
  induction bs generalizing row s with
  | nil => rfl
  | cons b bs ih => rw [drawRows, drawRows, drawBits_withUnread, ih]

theorem drawn_withUnread (x y : Reg) (n : Nat) (s : State) :
    drawn x y n (withUnread s ir sp st tone dirty) = withUnread (drawn x y n s) ir sp st tone dirty :=
  drawRows_withUnread ir sp st tone dirty _ _ _ _ (s.setV regVF 0)

/-- An instruction that writes neither ST nor `dirty` leaves them as the unread values they were. -/
theorem unread_kept {i : Instr} (s : State) (hSt : ∀ x, i ≠ .ldStVx x) (hCls : i ≠ .cls)
    (hDrw : ∀ x y n, i ≠ .drwVxVyN x y n)
    (h : executed i (withUnread s ir sp st tone dirty) = withUnread (executed i s) ir sp st tone dirty) :
    ∃ st' dirty', executed i (withUnread s ir sp st tone dirty) = withUnread (executed i s) ir sp st' tone dirty' ∧
      (st = s.st → st' = (executed i s).st) ∧ (dirty = s.dirty → dirty' = (executed i s).dirty) :=
  ⟨st, dirty, h, fun e => e.trans (executed_st s hSt).symm, fun e => e.trans (executed_display s hCls hDrw).2.symm⟩

/-- An instruction run with other values in what it cannot read leaves the same state but for those values; ST and
`dirty`, which it may write, agree after it if they agreed before. -/
theorem executed_withUnread (i : Instr) (s : State) :
    ∃ st' dirty', executed i (withUnread s ir sp st tone dirty) = withUnread (executed i s) ir sp st' tone dirty' ∧
      (st = s.st → st' = (executed i s).st) ∧ (dirty = s.dirty → dirty' = (executed i s).dirty) := by
  let u := withUnread s ir sp st tone dirty
  cases i with
  | cls => exact ⟨st, true, rfl, id, fun _ => rfl⟩
  | ldStVx x => exact ⟨s.getV x, dirty, rfl, fun _ => rfl, id⟩
  | ret =>
    cases hs : s.stack with
    | nil =>
      have hu : u.stack = [] := hs
      rw [executed_of_exec (exec_ret_nil hs), executed_of_exec (exec_ret_nil hu)]
      exact ⟨st, dirty, rfl, id, id⟩
    | cons a rest =>
      have hu : u.stack = a :: rest := hs
      rw [executed_of_exec (exec_ret_cons hs), executed_of_exec (exec_ret_cons hu)]
      exact ⟨st, dirty, rfl, id, id⟩
  | callAddr a =>
    by_cases h : s.stack.length < s.cfg.stackLimit
    · have hu : u.stack.length < u.cfg.stackLimit := h
      rw [executed_of_exec (exec_callAddr_room a h), executed_of_exec (exec_callAddr_room a hu)]
      exact ⟨st, dirty, rfl, id, id⟩
    · have hu : ¬u.stack.length < u.cfg.stackLimit := h
      rw [executed_of_exec (exec_callAddr_full a h), executed_of_exec (exec_callAddr_full a hu)]
      exact ⟨st, dirty, rfl, id, id⟩
  | drwVxVyN x y n =>
    by_cases h : n ≤ s.room (s.effectiveAddress 0)
    · have hu : n ≤ u.room (u.effectiveAddress 0) := h
      rw [executed_of_exec (exec_drwVxVyN_room x y h), executed_of_exec (exec_drwVxVyN_room x y hu), drawn_withUnread,
        drawn_frame]
      exact ⟨st, true, rfl, id, fun _ => rfl⟩
    · have hu : ¬n ≤ u.room (u.effectiveAddress 0) := h
      rw [executed_of_exec (exec_drwVxVyN_fault x y h), executed_of_exec (exec_drwVxVyN_fault x y hu)]
      exact ⟨st, dirty, rfl, id, id⟩
  | ldVxK x =>
    cases h : lowestKey s.keys with
    | none =>
      have hu : lowestKey u.keys = none := h
      rw [executed_of_exec (exec_ldVxK_none x h), executed_of_exec (exec_ldVxK_none x hu)]
      exact ⟨st, dirty, rfl, id, id⟩
    | some k =>
      have hu : lowestKey u.keys = some k := h
      rw [executed_of_exec (exec_ldVxK_some x h), executed_of_exec (exec_ldVxK_some x hu)]
      exact ⟨st, dirty, rfl, id, id⟩
  | ldBVx | ldMemVx =>
    exact unread_kept ir sp st tone dirty s nofun nofun nofun (storeBytes_withUnread ir sp st tone dirty s _ _)
  | ldVxMem => exact unread_kept ir sp st tone dirty s nofun nofun nofun (loadRegs_withUnread ir sp st tone dirty s _ _)
  | seVxByte | sneVxByte | seVxVy | sneVxVy | skpVx | sknpVx =>
    exact unread_kept ir sp st tone dirty s nofun nofun nofun (skipIf_withUnread ir sp st tone dirty s _)
  | _ => exact ⟨st, dirty, rfl, id, id⟩

theorem hideUnread_stepped (i : Instr) (s : State) :
    (stepped i s).hideUnread = (stepped i (withUnread s ir sp st tone dirty)).hideUnread := by
  obtain ⟨st', dirty', hOther, -, -⟩ := executed_withUnread ir sp st tone dirty i s
  rw [stepped, stepped, hOther]
  by_cases h : (executed i s).faulted = true
  · have hu : (withUnread (executed i s) ir sp st' tone dirty').faulted = true := h
    rw [if_pos h, if_pos hu]
    rfl
  · have hu : ¬(withUnread (executed i s) ir sp st' tone dirty').faulted = true := h
    rw [if_neg h, if_neg hu]
    rfl

end

theorem eq_withUnread_of_hideUnread_eq {s s' : State} (h : s.hideUnread = s'.hideUnread) :
    ∃ ir sp st tone dirty, s' = withUnread s ir sp st tone dirty := by
  refine ⟨s'.ir, s'.sp, s'.st, s'.toneStop, s'.dirty, ?_⟩
  cases s
  cases s'
  simp only [State.hideUnread, State.mk.injEq] at h
  simp only [withUnread, State.mk.injEq]
  simp [h]

/-- Settles O54: the other core is this one with other values in the five hidden pieces; its step fetches and decodes
the same word, and what it executes leaves the same state but for those values. -/
theorem programsCannotReadTheObservationState : Obligations.ProgramsCannotReadTheObservationState := by
  intro s s' hHidden
  obtain ⟨ir, sp, st, tone, dirty, rfl⟩ := eq_withUnread_of_hideUnread_eq hHidden
  rcases step_cases s with ⟨h, hs⟩ | ⟨h, f, hf, hs⟩ | ⟨h, w, e, hf, hd, hs⟩ | ⟨h, w, i, hf, hd, -⟩
  · exact ⟨_, _, hs, step_of_halted h, rfl⟩
  · exact ⟨_, _, hs, step_of_fetch_fault h hf, rfl⟩
  · exact ⟨_, _, hs, step_of_illegal h hf hd, rfl⟩
  · exact ⟨_, _, step_of_legal h hf hd, step_of_legal h hf hd, hideUnread_stepped w sp st false dirty i _⟩

/-! ### What a command can do -/

theorem press_frame (s : State) (k : Nat) : s.press k = { s with keys := (s.press k).keys } := by
  unfold State.press
  split <;> rfl

theorem release_frame (s : State) (k : Nat) : s.release k = { s with keys := (s.release k).keys } := by
  unfold State.release
  split <;> rfl

theorem load_frame (s : State) (bytes : List Byte) (offset : Nat) :
    (s.load bytes offset).2 = { s with mem := (s.load bytes offset).2.mem } := by
  unfold State.load
  split <;> rfl

theorem command_step_next {s t : State} {r : Reply} (h : command .step s = .next (t, r)) : step s = .next t := by
  obtain ⟨u, hu⟩ := step_total s
  rw [command_step hu] at h
  cases h
  exact hu

/-- A command is a step, a reset or an `ack_dirty`, or it changes the keys and memory at most (46_host_commands.md
R250). -/
theorem command_next_cases {c : Command} {s t : State} {r : Reply} (h : command c s = .next (t, r)) :
    (c = .step ∧ step s = .next t) ∨ (c = .reset ∧ t = s.softReset) ∨ (c = .ackDirty ∧ t = s.ackDirty) ∨
      t = { s with keys := t.keys, mem := t.mem } := by
  cases c with
  | step => exact .inl ⟨rfl, command_step_next h⟩
  | reset => cases h; exact .inr (.inl ⟨rfl, rfl⟩)
  | press k => cases h; rw [press_frame]; exact .inr (.inr (.inr rfl))
  | release k => cases h; rw [release_frame]; exact .inr (.inr (.inr rfl))
  | load bytes offset => cases h; rw [load_frame]; exact .inr (.inr (.inr rfl))
  | ackDirty => cases h; exact .inr (.inr (.inl ⟨rfl, rfl⟩))
  | observe => cases h; exact .inr (.inr (.inr rfl))

/-! ### SP -/

theorem step_sp {s t : State} (h : step s = .next t) : t.sp = s.sp := by
  rcases step_next_cases h with ⟨-, rfl⟩ | ⟨-, f, -, rfl⟩ | ⟨-, w, e, -, -, rfl⟩ | ⟨-, w, i, -, -, rfl⟩
  · rfl
  · rfl
  · rfl
  · exact stepped_of_executed (P := fun t => t.sp = s.sp) (fun _ hSp => hSp) (executed_sp i _)

/-- Settles O52: SP is one of the pieces that no instruction reads, and it is in no instruction's frame; of the host's
commands only a reset and a step could move it. -/
theorem noInstructionReadsOrWritesSp : Obligations.NoInstructionReadsOrWritesSp := by
  refine ⟨?_, ?_, State.softReset_sp, fun _ => rfl, ?_⟩
  · intro i s t hExec
    obtain rfl := eq_executed hExec
    exact executed_sp i s
  · intro i s t p hExec
    obtain rfl := eq_executed hExec
    obtain ⟨st', dirty', hOther, hSt, hDirty⟩ := executed_withUnread s.ir p s.st s.toneStop s.dirty i s
    rw [hSt rfl, hDirty rfl] at hOther
    have hSp : withUnread (executed i s) s.ir p (executed i s).st s.toneStop (executed i s).dirty =
        { executed i s with sp := p } := by
      rw [← executed_ir i s, ← executed_toneStop i s]
      rfl
    exact (exec_eq_next i _).trans (congrArg Host.Outcome.next (hOther.trans hSp))
  · intro c s t r hSp hCommand
    rcases command_next_cases hCommand with ⟨-, hStep⟩ | ⟨-, rfl⟩ | ⟨-, rfl⟩ | hRest
    · exact (step_sp hStep).trans hSp
    · rfl
    · exact hSp
    · rw [hRest]
      exact hSp

end Sys2Proof.Proofs

namespace Sys2Proof.Proofs
open Sys2Proof Sys2Proof.Machine

/-! ### What raises a fault -/

/-- Why an instruction may raise a fault (60_exceptions.md R271 to R274): an address past the end of memory, at most 15
beyond I; a return with nothing to return to; a call with no room. An illegal word is no instruction. -/
def FaultCause (i : Instr) (s : State) : Fault → Prop
  | .addressOutOfRange a => s.cfg.memSize ≤ a ∧ (i.wellFormed = true → a ≤ s.i.toNat + 15)
  | .unknownOpcode _ => False
  | .stackUnderflow => i = .ret ∧ s.stack = []
  | .stackOverflow => (∃ a, i = .callAddr a) ∧ ¬s.stack.length < s.cfg.stackLimit

/-- The address a transfer from I raises is the first that does not exist. -/
theorem faultCause_of_room {i : Instr} {s : State} {n : Nat} (h : ¬n ≤ s.room (s.effectiveAddress 0))
    (hn : i.wellFormed = true → n ≤ 16) :
    FaultCause i s (.addressOutOfRange (s.effectiveAddress 0 + s.room (s.effectiveAddress 0))) := by
  simp only [State.room, State.effectiveAddress] at h ⊢
  refine ⟨by omega, fun hWf => ?_⟩
  have := hn hWf
  omega

/-- The latch after a fault, with what the step had done before it: registers loaded or bytes stored (60_exceptions.md
R275, R278). -/
def Raised (i : Instr) (s t : State) (f : Fault) : Prop :=
  FaultCause i s f ∧ t = ({ s with v := t.v, mem := t.mem } : State).raise f ∧ ((∀ x, i ≠ .ldVxMem x) → t.v = s.v)

theorem bcdDigits_length (b : Byte) : (bcdDigits b).length = 3 := rfl

theorem storeBytes_raised {i : Instr} {s : State} {bs : List Byte} (hn : bs.length ≤ 16) :
    SameLatch s (s.storeBytes (s.effectiveAddress 0) bs) ∨
      ∃ f, Raised i s (s.storeBytes (s.effectiveAddress 0) bs) f := by
  rw [State.storeBytes_eq]
  split
  next => exact .inl ⟨rfl, rfl, rfl⟩
  next h => exact .inr ⟨_, faultCause_of_room h fun _ => hn, rfl, fun _ => rfl⟩

/-- An instruction leaves the latch alone or raises one fault. -/
theorem executed_latch_cases (i : Instr) (s : State) :
    SameLatch s (executed i s) ∨ ∃ f, Raised i s (executed i s) f := by
  cases i with
  | ret =>
    cases hs : s.stack with
    | nil =>
      rw [executed_of_exec (exec_ret_nil hs)]
      exact .inr ⟨.stackUnderflow, ⟨rfl, hs⟩, rfl, fun _ => rfl⟩
    | cons a rest =>
      rw [executed_of_exec (exec_ret_cons hs)]
      exact .inl ⟨rfl, rfl, rfl⟩
  | callAddr a =>
    by_cases h : s.stack.length < s.cfg.stackLimit
    · rw [executed_of_exec (exec_callAddr_room a h)]
      exact .inl ⟨rfl, rfl, rfl⟩
    · rw [executed_of_exec (exec_callAddr_full a h)]
      exact .inr ⟨.stackOverflow, ⟨⟨a, rfl⟩, h⟩, rfl, fun _ => rfl⟩
  | drwVxVyN x y n =>
    by_cases h : n ≤ s.room (s.effectiveAddress 0)
    · rw [executed_of_exec (exec_drwVxVyN_room x y h), drawn_frame]
      exact .inl ⟨rfl, rfl, rfl⟩
    · rw [executed_of_exec (exec_drwVxVyN_fault x y h)]
      have hHeight : (Instr.drwVxVyN x y n).wellFormed = true → n ≤ 16 := fun hWf => le_of_lt (of_decide_eq_true hWf)
      exact .inr ⟨_, faultCause_of_room h hHeight, rfl, fun _ => rfl⟩
  | ldBVx x => exact storeBytes_raised (by rw [bcdDigits_length]; decide)
  | ldMemVx x =>
    refine storeBytes_raised ?_
    rw [List.length_map, regsThrough_length]
    exact x.isLt
  | ldVxMem x =>
    have hRun : (regsThrough x).length ≤ 16 := by rw [regsThrough_length]; exact x.isLt
    change SameLatch s (s.loadRegs (s.effectiveAddress 0) (regsThrough x)) ∨
      ∃ f, Raised _ s (s.loadRegs (s.effectiveAddress 0) (regsThrough x)) f
    rw [State.loadRegs_eq, State.loadAll_rest]
    split
    next => exact .inl ⟨rfl, rfl, rfl⟩
    next h =>
      rw [State.loadAll_rest]
      exact .inr ⟨_, faultCause_of_room h fun _ => hRun, rfl, fun hNot => absurd rfl (hNot x)⟩
  | _ => exact .inl (executed_latch s nofun nofun nofun nofun nofun nofun)

theorem stepped_ir (i : Instr) (s : State) : (stepped i s).ir = s.ir :=
  stepped_of_executed (P := fun t => t.ir = s.ir) (fun _ hIr => hIr) (executed_ir i s)

theorem stepped_mem {i : Instr} (s : State) (hBcd : ∀ x, i ≠ .ldBVx x) (hStore : ∀ x, i ≠ .ldMemVx x) :
    (stepped i s).mem = s.mem :=
  stepped_of_executed (P := fun t => t.mem = s.mem) (fun _ hMem => hMem) (executed_mem s hBcd hStore)

/-- A step that executes an instruction ticks with the latch as it was, or ends in the fault it raised. -/
theorem stepped_cases {i : Instr} {s : State} (h : s.faulted = false) :
    (SameLatch s (executed i s) ∧ stepped i s = (executed i s).tick) ∨ ∃ f, Raised i s (stepped i s) f := by
  rcases executed_latch_cases i s with hSame | ⟨f, hCause, hRaise, hRegs⟩
  · have hClear : ¬(executed i s).faulted = true := by rw [hSame.1, h]; decide
    exact .inl ⟨hSame, if_neg hClear⟩
  · have hSet : (executed i s).faulted = true := by rw [hRaise]; rfl
    rw [stepped, if_pos hSet]
    exact .inr ⟨f, hCause, hRaise, hRegs⟩

theorem fields_of_raise {s t : State} {f : Fault} (h : t = ({ s with v := t.v, mem := t.mem } : State).raise f) :
    t.dt = s.dt ∧ t.st = s.st ∧ t.toneStop = s.toneStop ∧ t.i = s.i ∧ t.sp = s.sp ∧ t.stack = s.stack ∧
      t.disp = s.disp ∧ t.dirty = s.dirty ∧ t.keys = s.keys ∧ t.draws = s.draws ∧ t.cfg = s.cfg := by
  rw [h]
  exact ⟨rfl, rfl, rfl, rfl, rfl, rfl, rfl, rfl, rfl, rfl, rfl⟩

/-- Settles O16: a step that raises is a fetch, an illegal word, or an instruction that raised; only the last may have
stored bytes or loaded registers before. -/
theorem faultsArePreciseButForBlockTransfers : Obligations.FaultsArePreciseButForBlockTransfers := by
  intro s t hRunning hStep hFaulted
  rcases step_next_cases hStep with ⟨h, -⟩ | ⟨-, f, -, rfl⟩ | ⟨-, w, e, -, -, rfl⟩ | ⟨-, w, i, -, hDecode, rfl⟩
  · simp [hRunning] at h
  · simp
  · simp
  · rcases stepped_cases (i := i) (s := s.beginStep.advance w) hRunning with ⟨hSame, hTick⟩ | ⟨f, -, hRaise, hRegs⟩
    · rw [hTick] at hFaulted
      exact absurd (hSame.1.symm.trans hFaulted) (by simp [hRunning])
    · obtain ⟨hDt, hSt, hTone, hI, hSp, hStack, hDisp, hDirty, hKeys, hDraws, hCfg⟩ := fields_of_raise hRaise
      rw [stepped_ir]
      refine ⟨hDt, hSt, hTone, hI, hSp, hStack, hDisp, hDirty, hKeys, hDraws, hCfg, fun hBcd hStore => ?_,
        fun hLoad => ?_⟩
      · exact stepped_mem _ (fun x hx => hBcd x (hx ▸ hDecode)) (fun x hx => hStore x (hx ▸ hDecode))
      · exact hRegs fun x hx => hLoad x (hx ▸ hDecode)

/-! ### The invariant -/

/-- The part of the invariant that no latch and no timer enters. -/
def Sound (s : State) : Prop :=
  s.cfg.WellFormed ∧ Memory.wf s.cfg s.mem ∧ s.sp = 0 ∧ s.stack.length ≤ s.cfg.stackLimit

theorem sound_of_inv {s : State} (h : s.Inv) : Sound s := ⟨h.cfg, h.mem, h.sp, h.stack⟩

theorem inv_of_sound {s : State} (h : Sound s) (hLatch : s.LatchConsistent) (hTone : s.toneStop = true → s.st = 0) :
    s.Inv := by
  obtain ⟨hCfg, hMem, hSp, hStack⟩ := h
  exact ⟨hCfg, hMem, hSp, hStack, hLatch, hTone⟩

theorem executed_stack_length {i : Instr} {s : State} (h : s.stack.length ≤ s.cfg.stackLimit) :
    (executed i s).stack.length ≤ s.cfg.stackLimit := by
  cases i with
  | ret =>
    cases hs : s.stack with
    | nil =>
      rw [executed_of_exec (exec_ret_nil hs)]
      exact h
    | cons a rest =>
      rw [executed_of_exec (exec_ret_cons hs)]
      rw [hs] at h
      exact le_of_lt h
  | callAddr a =>
    by_cases hRoom : s.stack.length < s.cfg.stackLimit
    · rw [executed_of_exec (exec_callAddr_room a hRoom)]
      exact hRoom
    · rw [executed_of_exec (exec_callAddr_full a hRoom)]
      exact h
  | _ => rw [executed_frame]; exact h

theorem executed_mem_wf {i : Instr} {s : State} (h : Memory.wf s.cfg s.mem) : Memory.wf s.cfg (executed i s).mem := by
  cases i with
  | ldBVx | ldMemVx => exact storeBytes_wf _ _ h
  | _ => rw [executed_frame]; exact h

theorem executed_sound {i : Instr} {s : State} (h : Sound s) : Sound (executed i s) := by
  obtain ⟨hCfg, hMem, hSp, hStack⟩ := h
  rw [Sound, executed_cfg, executed_sp]
  exact ⟨hCfg, executed_mem_wf hMem, hSp, executed_stack_length hStack⟩

theorem stepped_sound {i : Instr} {s : State} (h : Sound s) : Sound (stepped i s) :=
  stepped_of_executed (fun _ hExecuted => hExecuted) (executed_sound h)

/-- What must hold where a fault is raised for the latch to be the consistent record of it. -/
def RecordOf (s : State) : Fault → Prop
  | .addressOutOfRange a => s.cfg.memSize ≤ a ∧ a ≤ 0x1000E
  | .unknownOpcode w => s.ir = w ∧ decode w = .error (.unknownOpcode w)
  | .stackUnderflow => s.ir = 0x00EE ∧ s.stack = []
  | .stackOverflow => fieldGroup s.ir = 0x2 ∧ s.stack.length = s.cfg.stackLimit

theorem raise_latchConsistent {s : State} {f : Fault} (hTone : s.toneStop = false) (h : RecordOf s f) :
    (s.raise f).LatchConsistent := by
  refine .inr ⟨rfl, hTone, ?_⟩
  cases f with
  | addressOutOfRange a =>
    obtain ⟨hBeyond, hBound⟩ := h
    have hInfo : ((s.raise (.addressOutOfRange a)).faultInfo).toNat = a :=
      (BitVec.toNat_ofNat a 17).trans (Nat.mod_eq_of_lt (by omega))
    rw [hInfo]
    exact .inl ⟨rfl, hBeyond, hBound⟩
  | unknownOpcode w =>
    obtain ⟨rfl, hDecode⟩ := h
    exact .inr (.inl ⟨rfl, rfl, hDecode⟩)
  | stackUnderflow =>
    obtain ⟨hIr, hStack⟩ := h
    exact .inr (.inr (.inl ⟨rfl, rfl, hIr, hStack⟩))
  | stackOverflow =>
    obtain ⟨hIr, hStack⟩ := h
    exact .inr (.inr (.inr ⟨rfl, rfl, hIr, hStack⟩))

theorem raise_inv {s : State} {f : Fault} (h : Sound s) (hTone : s.toneStop = false) (hRecord : RecordOf s f) :
    (s.raise f).Inv :=
  inv_of_sound h (raise_latchConsistent hTone hRecord) fun hSet => absurd (hTone.symm.trans hSet) (by decide)

theorem decode_error_eq {w : Word} {e : DecodeReject} (h : decode w = .error e) : e = .unknownOpcode w := by
  unfold decode decodeGroup0 decodeGroup8 decodeGroupE decodeGroupF at h
  repeat' split at h
  all_goals cases h <;> rfl

/-- The fetch raises at PC or one beyond it. -/
theorem fetch_fault_record {s : State} {f : Fault} (h : s.fetch = .error f) : RecordOf s f := by
  have hPc : s.pc.toNat < 2 ^ 16 := s.pc.isLt
  rw [State.fetch_eq] at h
  split at h
  · cases h
  · split at h <;> cases h <;> constructor <;> omega

/-- The cause of a fault, read off the word that decoded to the instruction. -/
theorem record_of_cause {i : Instr} {s : State} {f : Fault} (hDecode : decode s.ir = .ok i)
    (hBound : s.stack.length ≤ s.cfg.stackLimit) (h : FaultCause i s f) : RecordOf s f := by
  obtain ⟨hEncode, hWf⟩ := encodeOfDecodeIsTheWord s.ir i hDecode
  cases f with
  | addressOutOfRange a =>
    have hI : s.i.toNat < 2 ^ 16 := s.i.isLt
    have hNear := h.2 hWf
    exact ⟨h.1, by omega⟩
  | unknownOpcode w => exact h.elim
  | stackUnderflow =>
    obtain ⟨rfl, hEmpty⟩ := h
    exact ⟨hEncode.symm, hEmpty⟩
  | stackOverflow =>
    obtain ⟨⟨a, rfl⟩, hFull⟩ := h
    exact ⟨hEncode ▸ fieldGroup_formatAddr 0x2 a, by omega⟩

/-- A running core has an empty latch. -/
theorem latch_empty {s : State} (h : s.LatchConsistent) (hRunning : s.faulted = false) :
    s.faultCode = 0 ∧ s.faultInfo = 0 := by
  rcases h with ⟨-, hCode, hInfo⟩ | ⟨hFaulted, -⟩
  · exact ⟨hCode, hInfo⟩
  · exact absurd (hRunning.symm.trans hFaulted) (by decide)

theorem tick_tone_only_at_zero (s : State) (h : s.tick.toneStop = true) : s.tick.st = 0 := by
  have hOne : s.st = 1 := of_decide_eq_true h
  rw [State.tick_st, hOne]
  rfl

/-- Settles O57: a step that raises leaves the record of its cause, any other the latch as it was, and it ticks. -/
theorem everyStepKeepsTheInvariant : Obligations.EveryStepKeepsTheInvariant := by
  intro s t hInv hStep
  have hSound := sound_of_inv hInv
  rcases step_next_cases hStep with ⟨-, rfl⟩ | ⟨-, f, hFetch, rfl⟩ | ⟨-, w, e, -, hDecode, rfl⟩ |
    ⟨hRunning, w, i, -, hDecode, rfl⟩
  · exact hInv
  · exact raise_inv (s := s.beginStep) hSound rfl (fetch_fault_record (s := s.beginStep) hFetch)
  · obtain rfl := decode_error_eq hDecode
    exact raise_inv (s := s.beginStep.advance w) hSound rfl ⟨rfl, hDecode⟩
  · have hSound' : Sound (s.beginStep.advance w) := hSound
    rcases stepped_cases (i := i) (s := s.beginStep.advance w) hRunning with ⟨hSame, hTick⟩ | ⟨f, hCause, hRaise, -⟩
    · obtain ⟨hCode, hInfo⟩ := latch_empty hInv.latch hRunning
      obtain ⟨hFaulted', hCode', hInfo'⟩ := hSame
      have hLatch : (executed i (s.beginStep.advance w)).tick.LatchConsistent :=
        .inl ⟨hFaulted'.trans hRunning, hCode'.trans hCode, hInfo'.trans hInfo⟩
      rw [hTick]
      exact inv_of_sound (executed_sound hSound') hLatch (tick_tone_only_at_zero _)
    · have hRecord := record_of_cause (s := s.beginStep.advance w) hDecode hInv.stack hCause
      have hStepped : Sound (stepped i (s.beginStep.advance w)) := stepped_sound hSound'
      rw [hRaise] at hStepped ⊢
      refine raise_inv hStepped rfl ?_
      cases f <;> exact hRecord

/-- Settles O56: the empty memory is canonical, the latch empty. -/
theorem coldResetMeetsTheInvariant : Obligations.ColdResetMeetsTheInvariant := by
  have hCold : ∀ c : Config, c.WellFormed → (State.coldReset c).Inv := fun c hc =>
    inv_of_sound ⟨hc, Memory.nil_wf c, rfl, Nat.zero_le _⟩ (.inl ⟨rfl, rfl, rfl⟩) nofun
  exact ⟨hCold Config.standard (by decide), hCold⟩

theorem softReset_inv {s : State} (h : s.Inv) : s.softReset.Inv :=
  inv_of_sound ⟨h.cfg, h.mem, rfl, Nat.zero_le _⟩ (.inl ⟨rfl, rfl, rfl⟩) nofun

/-- An accepted image lies inside memory (46_host_commands.md R256). -/
theorem load_inv {s : State} (bytes : List Byte) (offset : Nat) (h : s.Inv) : (s.load bytes offset).2.Inv := by
  unfold State.load
  split
  next hFits =>
    obtain ⟨-, hEnd⟩ := of_decide_eq_true hFits
    exact ⟨h.cfg, Memory.writeAll_wf bytes h.mem (.inl hEnd), h.sp, h.stack, h.latch, h.tone⟩
  next => exact h

/-- The invariant does not look at the keys or `dirty`. -/
theorem inv_withHostLatches {s : State} (h : s.Inv) (keys : BitVec 16) (dirty : Bool) :
    ({ s with keys := keys, dirty := dirty } : State).Inv :=
  ⟨h.cfg, h.mem, h.sp, h.stack, h.latch, h.tone⟩

theorem command_keeps_inv (c : Command) {s : State} (h : s.Inv) : ∃ t r, command c s = .next (t, r) ∧ t.Inv := by
  cases c with
  | step =>
    obtain ⟨t, hStep⟩ := step_total s
    exact ⟨t, _, command_step hStep, everyStepKeepsTheInvariant s t h hStep⟩
  | reset => exact ⟨_, _, command_reset s, softReset_inv h⟩
  | press k =>
    refine ⟨_, _, rfl, ?_⟩
    rw [press_frame]
    exact inv_withHostLatches h _ s.dirty
  | release k =>
    refine ⟨_, _, rfl, ?_⟩
    rw [release_frame]
    exact inv_withHostLatches h _ s.dirty
  | load bytes offset => exact ⟨_, _, rfl, load_inv bytes offset h⟩
  | ackDirty => exact ⟨_, _, rfl, inv_withHostLatches h s.keys false⟩
  | observe => exact ⟨_, _, rfl, h⟩

/-- Settles O58, by induction on the commands. -/
theorem everyCommandRunKeepsTheInvariant : Obligations.EveryCommandRunKeepsTheInvariant := by
  intro cs
  induction cs with
  | nil => exact fun s h => ⟨s, rfl, h⟩
  | cons c cs ih =>
    intro s h
    obtain ⟨t, r, hCommand, hInv⟩ := command_keeps_inv c h
    obtain ⟨u, hRun, hLast⟩ := ih t hInv
    exact ⟨u, by rw [runCommands, hCommand]; exact hRun, hLast⟩

end Sys2Proof.Proofs

namespace Sys2Proof.Proofs
open Sys2Proof Sys2Proof.Machine

/-! ### Memory -/

/-- Settles O6: the two laws of `Memory.write` for the one cell changed. -/
theorem readAfterWriteGivesTheByteWritten : Obligations.ReadAfterWriteGivesTheByteWritten := by
  intro s a b hWf ha
  have hByte : ∀ k, ({ s with mem := Memory.write s.cfg s.mem a b } : State).byteAt k =
      if k = a then b else s.byteAt k := fun k => Memory.read_write a b k hWf
  refine ⟨_, State.memWrite_ok b ha, ?_, ?_, rfl, Memory.write_wf b hWf ha⟩
  · rw [State.memRead, hByte, if_pos rfl]
    exact if_pos ha
  · intro k hk
    simp only [State.memRead, hByte, if_neg hk]

theorem entry_eq_some_iff {m : Memory} {a : Nat} {b : Byte} (hs : m.Pairwise (fun p q => p.1 < q.1)) :
    m.entry a = some b ↔ (a, b) ∈ m := by
  induction m with
  | nil => simp [Memory.entry]
  | cons p m ih =>
    obtain ⟨k, x⟩ := p
    obtain ⟨hk, hm⟩ := List.pairwise_cons.mp hs
    by_cases h : k = a
    · subst h
      have hNotBelow : (k, b) ∉ m := fun hb => lt_irrefl k (hk (k, b) hb)
      simp [Memory.entry, hNotBelow, eq_comm]
    · simp [Memory.entry, h, Ne.symm h, ih hm]

/-- A canonical memory lists exactly the bytes that differ from what their address reads as unlisted. -/
theorem mem_iff_read {c : Config} {m : Memory} (h : Memory.wf c m) (p : Host.Cell) :
    p ∈ m ↔ Memory.read c m p.1 = p.2 ∧ p.2 ≠ Memory.unlisted c p.1 := by
  rw [Memory.read, ← entry_eq_some_iff h.1]
  cases he : m.entry p.1 with
  | none => simp [eq_comm]
  | some b =>
    obtain ⟨-, hb⟩ := h.2 (p.1, b) ((entry_eq_some_iff h.1).mp he)
    simp only [Option.some.injEq, Option.getD_some]
    exact ⟨fun e => ⟨e, e ▸ hb⟩, And.left⟩

/-- Settles O8: the cells of a canonical memory are those its reads determine, and their order is fixed. -/
theorem canonicalMemoriesThatReadAlikeAreEqual : Obligations.CanonicalMemoriesThatReadAlikeAreEqual := by
  intro c m m' h h' hRead
  have hIrrefl : Std.Irrefl (fun p q : Host.Cell => p.1 < q.1) := ⟨fun p => lt_irrefl p.1⟩
  have hAntisymm : Std.Antisymm (fun p q : Host.Cell => p.1 < q.1) := ⟨fun p q h₁ h₂ => absurd h₁ (lt_asymm h₂)⟩
  exact h.1.eq_of_mem_iff h'.1 fun p => by rw [mem_iff_read h, mem_iff_read h', hRead]

/-- Settles O51: the range check decides, and an accepted image is one run of bytes written. -/
theorem loadIsAllOrNothing : Obligations.LoadIsAllOrNothing := by
  intro s bytes offset hWf
  refine ⟨fun hFits => ?_, fun hNot => ?_⟩
  · have hByte : ∀ k, ({ s with mem := Memory.writeAll s.cfg s.mem offset bytes } : State).byteAt k =
        if offset ≤ k ∧ k < offset + bytes.length then bytes.getD (k - offset) 0 else s.byteAt k :=
      fun k => State.writeAll_byteAt s bytes k hWf (.inl hFits.2)
    refine ⟨_, if_pos (decide_eq_true hFits), fun k hk => ?_, fun k hk => ?_, rfl⟩
    · rw [hByte, if_pos (by omega), Nat.add_sub_cancel_left]
    · rw [hByte, if_neg hk]
  · exact if_neg fun hFits => hNot (of_decide_eq_true hFits)

/-! ### Block transfers -/

/-- The first address from `a` upward that does not exist (20_memory.md R62). -/
theorem add_room (s : State) (a : Nat) : a + s.room a = max a s.cfg.memSize := by
  simp only [State.room]
  omega

theorem storeBytes_fault {s : State} {a : Nat} {bs : List Byte} (h : ¬bs.length ≤ s.room a) :
    (s.storeBytes a bs).faulted = true ∧ (s.storeBytes a bs).faultCode = 1 ∧
      (s.storeBytes a bs).faultInfo = BitVec.ofNat 17 (max a s.cfg.memSize) := by
  rw [State.storeBytes_eq, if_neg h, ← add_room]
  exact ⟨rfl, rfl, rfl⟩

theorem loadRegs_fault {s : State} {a : Nat} {rs : List Reg} (h : ¬rs.length ≤ s.room a) :
    (s.loadRegs a rs).faulted = true ∧ (s.loadRegs a rs).faultCode = 1 ∧
      (s.loadRegs a rs).faultInfo = BitVec.ofNat 17 (max a s.cfg.memSize) := by
  rw [State.loadRegs_eq, if_neg h, ← add_room]
  exact ⟨rfl, rfl, rfl⟩

theorem loadRegs_byteAt (s : State) (a : Nat) (rs : List Reg) (k : Nat) : (s.loadRegs a rs).byteAt k = s.byteAt k := by
  rw [loadRegs_frame]
  rfl

/-- What `FX33` stores at place `j` of its run. -/
theorem bcdDigits_getD_toNat (b : Byte) :
    ((bcdDigits b).getD 0 0).toNat = b.toNat / 100 ∧ ((bcdDigits b).getD 1 0).toNat = b.toNat / 10 % 10 ∧
      ((bcdDigits b).getD 2 0).toNat = b.toNat % 10 := by
  have hb : b.toNat < 2 ^ 8 := b.isLt
  have hDigit : ∀ n < 256, (BitVec.ofNat 8 n).toNat = n := fun n hn =>
    (BitVec.toNat_ofNat n 8).trans (Nat.mod_eq_of_lt hn)
  exact ⟨hDigit _ (by omega), hDigit _ (by omega), hDigit _ (by omega)⟩

theorem exec_ldBVx (x : Reg) (s : State) :
    exec (.ldBVx x) s = .next (s.storeBytes (s.effectiveAddress 0) (bcdDigits (s.getV x))) := rfl

theorem exec_ldMemVx (x : Reg) (s : State) :
    exec (.ldMemVx x) s = .next (s.storeBytes (s.effectiveAddress 0) ((regsThrough x).map s.getV)) := rfl

theorem exec_ldVxMem (x : Reg) (s : State) :
    exec (.ldVxMem x) s = .next (s.loadRegs (s.effectiveAddress 0) (regsThrough x)) := rfl

/-- Every byte after `FX33`, with room or without (43_index_memory.md R194). -/
theorem bcd_byteAt {s : State} (x : Reg) (k : Nat) (hWf : Memory.wf s.cfg s.mem) :
    (s.storeBytes (s.effectiveAddress 0) (bcdDigits (s.getV x))).byteAt k =
      if s.effectiveAddress 0 ≤ k ∧ k ≤ s.effectiveAddress 2 ∧ k < s.cfg.memSize then
        (bcdDigits (s.getV x)).getD (k - s.effectiveAddress 0) 0
      else s.byteAt k := by
  rw [storeBytes_byteAt _ _ k hWf, bcdDigits_length]
  have hEnd : k < s.effectiveAddress 0 + 3 ↔ k ≤ s.effectiveAddress 2 := by simp only [State.effectiveAddress]; omega
  simp only [hEnd]

/-- Every byte after `FX55`, with room or without (43_index_memory.md R195). -/
theorem store_byteAt {s : State} (x : Reg) (k : Nat) (hWf : Memory.wf s.cfg s.mem) :
    (s.storeBytes (s.effectiveAddress 0) ((regsThrough x).map s.getV)).byteAt k =
      if s.effectiveAddress 0 ≤ k ∧ k ≤ s.effectiveAddress x.val ∧ k < s.cfg.memSize then
        ((regsThrough x).map s.getV).getD (k - s.effectiveAddress 0) 0
      else s.byteAt k := by
  rw [storeBytes_byteAt _ _ k hWf, List.length_map, regsThrough_length]
  have hEnd : k < s.effectiveAddress 0 + (x.val + 1) ↔ k ≤ s.effectiveAddress x.val := by
    simp only [State.effectiveAddress]; omega
  simp only [hEnd]

theorem effectiveAddress_sub (s : State) (k : Nat) : s.effectiveAddress k - s.effectiveAddress 0 = k := by
  simp only [State.effectiveAddress]
  omega

theorem effectiveAddress_le {s : State} {j k : Nat} : s.effectiveAddress j ≤ s.effectiveAddress k ↔ j ≤ k :=
  Nat.add_le_add_iff_left

/-- The digit at place `j` after `FX33`, where its address exists. -/
theorem bcd_digit {s : State} (x : Reg) {j : Nat} (hj : j ≤ 2) (hWf : Memory.wf s.cfg s.mem)
    (hExists : s.effectiveAddress j < s.cfg.memSize) :
    (s.storeBytes (s.effectiveAddress 0) (bcdDigits (s.getV x))).byteAt (s.effectiveAddress j) =
      (bcdDigits (s.getV x)).getD j 0 := by
  rw [bcd_byteAt x _ hWf, effectiveAddress_sub,
    if_pos ⟨effectiveAddress_le.mpr (Nat.zero_le j), effectiveAddress_le.mpr hj, hExists⟩]

/-- The register at place `r` after `FX55`, where its address exists. -/
theorem store_register {s : State} {x r : Reg} (hr : r ≤ x) (hWf : Memory.wf s.cfg s.mem)
    (hExists : s.effectiveAddress r.val < s.cfg.memSize) :
    (s.storeBytes (s.effectiveAddress 0) ((regsThrough x).map s.getV)).byteAt (s.effectiveAddress r.val) =
      s.getV r := by
  rw [store_byteAt x _ hWf, effectiveAddress_sub, regsThrough_map_getD s hr,
    if_pos ⟨effectiveAddress_le.mpr (Nat.zero_le _), effectiveAddress_le.mpr hr, hExists⟩]

/-- Settles O32: with room every digit's address exists. -/
theorem bcdStoresThreeDigits : Obligations.BcdStoresThreeDigits := by
  intro x s hWf hRoom
  obtain ⟨hHundreds, hTens, hOnes⟩ := bcdDigits_getD_toNat (s.getV x)
  have hExists : ∀ j ≤ 2, s.effectiveAddress j < s.cfg.memSize := fun j hj =>
    lt_of_le_of_lt (effectiveAddress_le.mpr hj) hRoom
  refine ⟨_, exec_ldBVx x s, ?_, ?_, ?_, ?_, ?_⟩
  · rw [bcd_digit x (by decide) hWf (hExists 0 (by decide)), hHundreds]
  · rw [bcd_digit x (by decide) hWf (hExists 1 (by decide)), hTens]
  · rw [bcd_digit x (by decide) hWf (hExists 2 (by decide)), hOnes]
  · intro k hk
    rw [bcd_byteAt x k hWf, if_neg fun hIn => hk ⟨hIn.1, hIn.2.1⟩]
  · have hNext := (exec_ldBVx x s).symm.trans (exec_ldBVx_room hRoom)
    rw [Host.Outcome.next.inj hNext]

/-- Settles O33: the same law for each byte, cut off at the end of memory. -/
theorem bcdStopsAtTheEndOfMemory : Obligations.BcdStopsAtTheEndOfMemory := by
  intro x s hWf hNoRoom
  obtain ⟨hHundreds, hTens, -⟩ := bcdDigits_getD_toNat (s.getV x)
  have hLong : ¬(bcdDigits (s.getV x)).length ≤ s.room (s.effectiveAddress 0) := by
    simp only [bcdDigits_length, State.room, State.effectiveAddress] at hNoRoom ⊢
    omega
  obtain ⟨hFaulted, hCode, hInfo⟩ := storeBytes_fault hLong
  refine ⟨_, exec_ldBVx x s, hFaulted, hCode, hInfo, ?_, ?_, ?_, storeBytes_frame s _ _⟩
  · intro h
    rw [bcd_digit x (by decide) hWf h, hHundreds]
  · intro h
    rw [bcd_digit x (by decide) hWf h, hTens]
  · intro k hk
    rw [bcd_byteAt x k hWf, if_neg fun hIn => hk ⟨hIn.1, hIn.2.2⟩]

/-- Settles O34: with room every register's address exists. -/
theorem storeWritesV0ThroughVx : Obligations.StoreWritesV0ThroughVx := by
  intro x s hWf hRoom
  refine ⟨_, exec_ldMemVx x s, ?_, ?_, ?_⟩
  · intro r hr
    exact store_register hr hWf (lt_of_le_of_lt (effectiveAddress_le.mpr hr) hRoom)
  · intro k hk
    rw [store_byteAt x k hWf, if_neg fun hIn => hk ⟨hIn.1, hIn.2.1⟩]
  · have hNext := (exec_ldMemVx x s).symm.trans (exec_ldMemVx_room hRoom)
    rw [Host.Outcome.next.inj hNext]

/-- Without room in memory for `Vx`, the run of `V0` through `Vx` is longer than what is left. -/
theorem regsThrough_too_long {s : State} {x : Reg} (h : s.cfg.memSize ≤ s.effectiveAddress x.val) :
    ¬(regsThrough x).length ≤ s.room (s.effectiveAddress 0) := by
  simp only [regsThrough_length, State.room, State.effectiveAddress] at h ⊢
  omega

/-- Settles O35: a register whose address exists comes before `Vx`, whose address does not. -/
theorem storeStopsAtTheEndOfMemory : Obligations.StoreStopsAtTheEndOfMemory := by
  intro x s hWf hNoRoom
  have hLong : ¬((regsThrough x).map s.getV).length ≤ s.room (s.effectiveAddress 0) := by
    rw [List.length_map]
    exact regsThrough_too_long hNoRoom
  obtain ⟨hFaulted, hCode, hInfo⟩ := storeBytes_fault hLong
  refine ⟨_, exec_ldMemVx x s, hFaulted, hCode, hInfo, ?_, ?_, storeBytes_frame s _ _⟩
  · intro r hr
    have hBefore : r ≤ x := effectiveAddress_le.mp (le_of_lt (lt_of_lt_of_le hr hNoRoom))
    exact store_register hBefore hWf hr
  · intro k hk
    rw [store_byteAt x k hWf, if_neg fun hIn => hk ⟨hIn.1, hIn.2.2⟩]

/-- Settles O36: with room the run of loads is `State.loadAll`. -/
theorem loadReadsV0ThroughVx : Obligations.LoadReadsV0ThroughVx := by
  intro x s hRoom
  have hFits : (regsThrough x).length ≤ s.room (s.effectiveAddress 0) := by
    simp only [regsThrough_length, State.room, State.effectiveAddress] at hRoom ⊢
    omega
  refine ⟨_, exec_ldVxMem x s, ?_, ?_, ?_, ?_⟩
  · intro r hr
    have hExists := lt_of_le_of_lt (effectiveAddress_le.mpr hr) hRoom
    exact (loadRegs_getV s _ x r).trans (if_pos ⟨hr, hExists⟩)
  · intro r hr
    exact (loadRegs_getV s _ x r).trans (if_neg fun hIn => hr (mem_regsThrough hIn.1))
  · exact loadRegs_byteAt s _ _
  · rw [State.loadRegs_eq, if_pos hFits]
    exact State.loadAll_rest s _ _

/-- Settles O37: a register whose address exists comes before `Vx`, the others are not loaded. -/
theorem loadStopsAtTheEndOfMemory : Obligations.LoadStopsAtTheEndOfMemory := by
  intro x s hNoRoom
  obtain ⟨hFaulted, hCode, hInfo⟩ := loadRegs_fault (regsThrough_too_long hNoRoom)
  refine ⟨_, exec_ldVxMem x s, hFaulted, hCode, hInfo, ?_, ?_, loadRegs_byteAt s _ _, loadRegs_frame s _ _⟩
  · intro r hr
    have hBefore : r ≤ x := effectiveAddress_le.mp (le_of_lt (lt_of_lt_of_le hr hNoRoom))
    exact (loadRegs_getV s _ x r).trans (if_pos ⟨hBefore, hr⟩)
  · intro r hr
    exact (loadRegs_getV s _ x r).trans (if_neg fun hIn => absurd hIn.2 (Nat.not_lt.mpr hr))

/-- A fetch after nothing but memory changed. -/
theorem fetch_of_mem_changed {s t : State} (hRest : t = { s with mem := t.mem }) (h : s.pc.toNat + 1 < s.cfg.memSize) :
    t.fetch = .ok (wordOfBytes (t.byteAt s.pc.toNat) (t.byteAt (s.pc.toNat + 1))) := by
  rw [hRest]
  exact State.fetch_ok h

/-- Settles O38: the next fetch reads the two bytes that O32 and O34 give, at whatever places of the run they are. -/
theorem storedBytesAreTheNextWordFetched : Obligations.StoredBytesAreTheNextWordFetched := by
  intro x s hWf hPc
  constructor
  · intro hRoom
    obtain ⟨t, hExec, hStored, hOther, hRest⟩ := storeWritesV0ThroughVx x s hWf hRoom
    have hBeside : ∀ k, (∀ r : Reg, r ≤ x → s.effectiveAddress r.val ≠ k) → t.byteAt k = s.byteAt k := by
      intro k hk
      refine hOther k fun ⟨hLow, hHigh⟩ => ?_
      simp only [State.effectiveAddress] at hLow hHigh hk
      have hx := x.isLt
      exact hk ⟨k - s.i.toNat, by omega⟩ (Fin.le_def.mpr (by simp only; omega)) (by simp only; omega)
    exact ⟨t, _, _, hExec, fetch_of_mem_changed hRest hPc, fun r hr hAt => hAt ▸ hStored r hr,
      fun r hr hAt => hAt ▸ hStored r hr, hBeside _, hBeside _⟩
  · intro hRoom
    obtain ⟨t, hExec, hHundreds, hTens, hOnes, hOther, hRest⟩ := bcdStoresThreeDigits x s hWf hRoom
    have hBeside : ∀ k, (∀ j < 3, s.effectiveAddress j ≠ k) → t.byteAt k = s.byteAt k := by
      intro k hk
      refine hOther k fun ⟨hLow, hHigh⟩ => ?_
      simp only [State.effectiveAddress] at hLow hHigh hk
      exact hk (k - s.i.toNat) (by omega) (by omega)
    exact ⟨t, _, _, hExec, fetch_of_mem_changed hRest hPc, fun hAt => hAt ▸ hHundreds, fun hAt => hAt ▸ hTens,
      fun hAt => hAt ▸ hOnes, fun hAt => hAt ▸ hHundreds, fun hAt => hAt ▸ hTens, fun hAt => hAt ▸ hOnes,
      hBeside _, hBeside _⟩

end Sys2Proof.Proofs

namespace Sys2Proof.Proofs
open Sys2Proof Sys2Proof.Machine

/-! ### The display -/

/-- Settles O39: the blank display has no lit cell. -/
theorem clsBlanksTheDisplay : Obligations.ClsBlanksTheDisplay :=
  fun s => ⟨s.clearDisplay, rfl, Display.blank_read, rfl⟩

/-- A cell is erased exactly where a pixel falls on a lit one (44_display.md R213). -/
theorem erased_iff {p : Fin 32 → Fin 64 → Bool} {s t : State} (h : Draws p s t) :
    (∃ r c, s.cell r c = true ∧ t.cell r c = false) ↔ ∃ r c, p r c = true ∧ s.cell r c = true := by
  have hCell : ∀ r c, (s.cell r c = true ∧ t.cell r c = false) ↔ (p r c = true ∧ s.cell r c = true) := by
    intro r c
    rw [h.cell]
    cases p r c <;> cases s.cell r c <;> decide
  simp only [hCell]

theorem sprite_fits {s : State} {n : Nat} (h : s.effectiveAddress n ≤ s.cfg.memSize ∨ n = 0) :
    n ≤ s.room (s.effectiveAddress 0) := by
  simp only [State.room, State.effectiveAddress] at h ⊢
  omega

/-- Settles O40: the draw from the display as it was, VF cleared first. -/
theorem drwXorsTheClippedSpriteAndFlagsErasure : Obligations.DrwXorsTheClippedSpriteAndFlagsErasure := by
  intro x y n s hFits
  have hDraws := drawn_draws x y n s
  refine ⟨_, exec_drwVxVyN_room x y (sprite_fits hFits), hDraws.cell, ?_, ?_, ?_, ?_, ?_⟩
  · intro hErased
    exact hDraws.vf_set ((erased_iff hDraws).mp hErased)
  · intro hNone
    exact (hDraws.vf_kept (mt (erased_iff hDraws).mpr hNone)).trans (State.setV_getV_same s regVF 0)
  · intro r hr
    exact (getV_of_draws hDraws hr).trans (State.setV_getV_other s 0 hr.symm)
  · intro k
    rw [drawn_frame]
    rfl
  · rw [drawn_frame]

/-- Settles O41: the branch of the draw whose reads go beyond memory. -/
theorem drwSpriteReadFaultTouchesNothing : Obligations.DrwSpriteReadFaultTouchesNothing := by
  intro x y n s hn hBeyond
  have hShort : ¬n ≤ s.room (s.effectiveAddress 0) := by
    simp only [State.room, State.effectiveAddress] at hBeyond ⊢
    omega
  rw [exec_drwVxVyN_fault x y hShort, add_room]
  rfl

/-- Settles O42: the second draw has the same origin and the same bytes, so it XORs the same pixels again; it erases
what the first lit. -/
theorem drawingTwiceRestoresTheDisplay : Obligations.DrawingTwiceRestoresTheDisplay := by
  intro x y n s t hx hy hFits hFirst
  obtain ⟨t', hExecT, hCellT, -, -, hRegsT, hBytesT, hRestT⟩ :=
    drwXorsTheClippedSpriteAndFlagsErasure x y n s hFits
  obtain rfl := Host.Outcome.next.inj (hFirst.symm.trans hExecT)
  have hI : t.i = s.i := by rw [hRestT]
  have hCfg : t.cfg = s.cfg := by rw [hRestT]
  have hAddress : ∀ j, t.effectiveAddress j = s.effectiveAddress j := fun j => by
    rw [State.effectiveAddress, hI, State.effectiveAddress]
  obtain ⟨u, hExecU, hCellU, hSetU, hKeptU, -, -, -⟩ :=
    drwXorsTheClippedSpriteAndFlagsErasure x y n t (by rwa [hAddress, hCfg])
  simp only [hRegsT x hx, hRegsT y hy, hAddress, hBytesT] at hCellU
  have hRestored : ∀ r c, u.cell r c = s.cell r c := fun r c => by
    rw [hCellU, hCellT, Bool.xor_assoc, Bool.xor_self, Bool.xor_false]
  refine ⟨u, hExecU, hRestored, ?_, ?_⟩
  · intro hVf
    by_contra hNone
    have hErasesNone : ¬∃ r c, t.cell r c = true ∧ u.cell r c = false := by
      rintro ⟨r, c, ht, hu⟩
      rw [hRestored] at hu
      rw [hCellT, hu, Bool.false_xor] at ht
      exact hNone ⟨r, c, hu, ht⟩
    exact absurd (hVf.symm.trans (hKeptU hErasesNone)) (by decide)
  · rintro ⟨r, c, hs, hp⟩
    exact hSetU ⟨r, c, by rw [hCellT, hs, hp]; rfl, by rw [hRestored, hs]⟩

/-- The core just reset, but for a display with every cell lit. -/
def allLit : State := { State.reset with disp := Vector.replicate 32 (Vector.replicate 64 true) }

theorem allLit_cell (r : Fin 32) (c : Fin 64) : allLit.cell r c = true := by
  simp [allLit, State.cell]

/-- Refutes O43: on a display with every cell lit, the first draw of the font's top row of `0` erases four cells, and
the second only lights them again. -/
theorem not_drawingTwiceAlwaysCollides : ¬ Obligations.DrawingTwiceAlwaysCollides := by
  intro h
  have hFits : allLit.effectiveAddress 1 ≤ allLit.cfg.memSize := by decide
  obtain ⟨t, hFirst, -⟩ := drwXorsTheClippedSpriteAndFlagsErasure 0 0 1 allLit (.inl hFits)
  obtain ⟨u, hSecond, -, hVf⟩ :=
    drawingTwiceRestoresTheDisplay 0 0 1 allLit t (by decide) (by decide) (.inl hFits) hFirst
  have hCollides := h 0 0 1 allLit t u (by decide) (by decide) hFits hFirst hSecond ⟨0, 0, by decide⟩
  obtain ⟨r, c, hDark, -⟩ := hVf.mp hCollides
  exact absurd (allLit_cell r c) (by simp [hDark])

end Sys2Proof.Proofs

namespace Sys2Proof.Proofs
open Sys2Proof Sys2Proof.Machine

/-! ### The step and the host -/

/-- Settles O17: a halted core's step changes nothing, and the other commands do not touch the latch or PC. -/
theorem onlyResetClearsALatchedFault : Obligations.OnlyResetClearsALatchedFault := by
  intro s h
  refine ⟨fun c t r hNotReset hCommand => ?_, _, command_reset s, rfl, rfl, rfl, rfl⟩
  rcases command_next_cases hCommand with ⟨-, hStep⟩ | ⟨hReset, -⟩ | ⟨-, rfl⟩ | hRest
  · obtain rfl := Host.Outcome.next.inj ((step_of_halted h).symm.trans hStep)
    exact ⟨h, rfl, rfl, rfl⟩
  · exact absurd hReset hNotReset
  · exact ⟨h, rfl, rfl, rfl⟩
  · rw [hRest]
    exact ⟨h, rfl, rfl, rfl⟩

/-- Settles O46: the key wait undoes the advance of PC. -/
theorem keyWaitStepLeavesPcAndTicksTheTimers : Obligations.KeyWaitStepLeavesPcAndTicksTheTimers := by
  intro x s hFetch hKeys
  have hDecode := decodeOfEncodeIsTheInstruction (.ldVxK x) rfl
  have hExec := exec_ldVxK_none (s := s.beginStep.advance (encode (.ldVxK x))) x (lowestKey_eq_none.mpr hKeys)
  rw [step_ticks_without_fault hFetch hDecode hExec hFetch.1]
  have hPc : (s.beginStep.advance (encode (.ldVxK x))).pc - 2 = s.pc := BitVec.add_sub_cancel s.pc 2
  rw [hPc]
  rfl

theorem step_of_self_jump {s : State} {a : BitVec 12} (hRunning : s.faulted = false) (hDt : s.dt = 0) (hSt : s.st = 0)
    (hFetch : s.fetch = .ok (encode (.jpAddr a))) (hPc : s.pc = zextAddr a) :
    step s = .next { s with ir := encode (.jpAddr a), toneStop := false } := by
  have hDecode := decodeOfEncodeIsTheInstruction (.jpAddr a) rfl
  have hExec := exec_jpAddr a (s.beginStep.advance (encode (.jpAddr a)))
  have hNoFault : ¬((s.beginStep.advance (encode (.jpAddr a))).setPc (zextAddr a)).faulted = true := by simp [hRunning]
  rw [step_of_legal hRunning hFetch hDecode, stepped, executed_of_exec hExec, if_neg hNoFault]
  simp only [State.tick, State.setPc, State.advance, State.beginStep, hDt, hSt, hPc, countDown_zero]
  rfl

/-- Settles O55: the jump to itself puts PC back, timers at 0 stay there, and the same step is taken again. -/
theorem endOfRunIsAFixedPoint : Obligations.EndOfRunIsAFixedPoint := by
  rintro s ⟨hRunning, hDt, hSt, a, hFetch, hPc⟩
  exact ⟨_, step_of_self_jump hRunning hDt hSt hFetch hPc, rfl, step_of_self_jump hRunning hDt hSt hFetch hPc⟩

theorem executed_keeps_dirty {i : Instr} {s : State} (h : s.dirty = true) : (executed i s).dirty = true := by
  cases i with
  | cls => rfl
  | drwVxVyN x y n =>
    by_cases hn : n ≤ s.room (s.effectiveAddress 0)
    · rw [executed_of_exec (exec_drwVxVyN_room x y hn)]
    · rw [executed_of_exec (exec_drwVxVyN_fault x y hn)]
      exact h
  | _ => rw [executed_frame]; exact h

theorem step_keeps_dirty {s t : State} (h : s.dirty = true) (hStep : step s = .next t) : t.dirty = true := by
  rcases step_next_cases hStep with ⟨-, rfl⟩ | ⟨-, f, -, rfl⟩ | ⟨-, w, e, -, -, rfl⟩ | ⟨-, w, i, -, -, rfl⟩
  · exact h
  · exact h
  · exact h
  · exact stepped_of_executed (P := fun t => t.dirty = true) (fun _ hDirty => hDirty) (executed_keeps_dirty h)

/-- Settles O59: no instruction clears `dirty`, and neither does any command but `ack_dirty`. -/
theorem ackDirtyAloneClearsDirtyAndObserveOnlyLooks : Obligations.AckDirtyAloneClearsDirtyAndObserveOnlyLooks := by
  refine ⟨fun s => rfl, fun c s t r hNotAck h hCommand => ?_, fun s => ⟨s.observe, rfl, ?_⟩⟩
  · rcases command_next_cases hCommand with ⟨-, hStep⟩ | ⟨-, rfl⟩ | ⟨hAck, -⟩ | hRest
    · exact step_keeps_dirty h hStep
    · rfl
    · exact absurd hAck hNotAck
    · rw [hRest]
      exact h
  · exact ⟨rfl, rfl, rfl, rfl, rfl, rfl, rfl, rfl, rfl, rfl, rfl, rfl, rfl, rfl, rfl, rfl⟩

/-! ### Control flow -/

/-- Settles O19: a 12-bit address and a byte add up below 2^16. -/
theorem jpV0LoadsTheExactSum : Obligations.JpV0LoadsTheExactSum := by
  intro a s
  refine ⟨_, rfl, ?_, rfl⟩
  simp only [State.setPc_pc, offsetTarget, zextAddr, zextByte]
  have ha : a.toNat < 2 ^ 12 := a.isLt
  bv_omega

/-- Settles O20: the branches of the call with room and of the return with an entry. -/
theorem callAndRetMoveTheReturnAddress : Obligations.CallAndRetMoveTheReturnAddress :=
  ⟨fun a _ hRoom => exec_callAddr_room a hRoom, fun _ _ _ hStack => exec_ret_cons hStack⟩

/-- Settles O21: the other two branches. -/
theorem stackFaultsAreRaised : Obligations.StackFaultsAreRaised :=
  ⟨fun _ hEmpty => exec_ret_nil hEmpty, fun a _ hFull => exec_callAddr_full a (by omega)⟩

theorem skipIf_eq_with (s : State) (c : Bool) : s.skipIf c = { s with pc := if c then s.pc + 2 else s.pc } :=
  State.skipIf_eq s c

/-- Settles O22: the four skips differ in their condition alone. -/
theorem skipsOnRegisterValuesMovePcByTwo : Obligations.SkipsOnRegisterValuesMovePcByTwo := by
  intro x y b s
  simp only [exec, execSeVxByte, execSneVxByte, execSeVxVy, execSneVxVy, skipIf_eq_with]
  simp

/-! ### Load, arithmetic, logic, shift, random -/

/-- Settles O25: each is one write of Vx. -/
theorem movesAndLogicWriteOnlyVx : Obligations.MovesAndLogicWriteOnlyVx := by
  intro x y b s
  refine ⟨⟨_, rfl, ?_, State.setV_onlyRegisters s x _⟩,
    ⟨_, rfl, State.setV_getV_same s x _, State.setV_onlyRegisters s x _⟩,
    ⟨_, rfl, State.setV_getV_same s x _, State.setV_onlyRegisters s x _⟩,
    ⟨_, rfl, State.setV_getV_same s x _, State.setV_onlyRegisters s x _⟩,
    ⟨_, rfl, State.setV_getV_same s x _, State.setV_onlyRegisters s x _⟩⟩
  rw [State.setV_getV_same, BitVec.toNat_add]

/-- The result in Vx, the flag in VF unless it is Vx, and nothing else (42_load_alu.md R173). -/
theorem setFlagThenResult_spec (s : State) (x : Reg) (f : Bool) (b : Byte) :
    (s.setFlagThenResult x f b).getV x = b ∧ (x ≠ regVF → (s.setFlagThenResult x f b).getV regVF = flagByte f) ∧
      OnlyRegisters [x, regVF] s (s.setFlagThenResult x f b) := by
  refine ⟨?_, fun hx => ?_, State.setFlagThenResult_onlyRegisters s x f b⟩
  · rw [State.setFlagThenResult_getV, if_pos rfl]
  · rw [State.setFlagThenResult_getV, if_neg hx, if_pos rfl]

/-- Settles O26: one write of the flag, then one of the sum. -/
theorem addWritesSumAndCarry : Obligations.AddWritesSumAndCarry := by
  intro x y s
  obtain ⟨hResult, hFlag, hOnly⟩ :=
    setFlagThenResult_spec s x (carryOut (s.getV x) (s.getV y)) (s.getV x + s.getV y)
  refine ⟨_, rfl, ?_, fun hx => ?_, hOnly⟩
  · rw [hResult, BitVec.toNat_add]
  · rw [hFlag hx, flagByte, carryOut]
    simp

/-- The difference modulo 256 with the flag of no borrow, equality included (D9). -/
theorem setDifference_spec (s : State) (x : Reg) (a b : Byte) :
    ((s.setFlagThenResult x (notBorrow a b) (a - b)).getV x).toNat = (a.toNat + 256 - b.toNat) % 256 ∧
      (x ≠ regVF → (s.setFlagThenResult x (notBorrow a b) (a - b)).getV regVF = if a.toNat ≥ b.toNat then 1 else 0) ∧
      OnlyRegisters [x, regVF] s (s.setFlagThenResult x (notBorrow a b) (a - b)) := by
  obtain ⟨hResult, hFlag, hOnly⟩ := setFlagThenResult_spec s x (notBorrow a b) (a - b)
  refine ⟨?_, fun hx => ?_, hOnly⟩
  · rw [hResult]
    bv_omega
  · rw [hFlag hx, flagByte, notBorrow]
    simp

/-- Settles O27: the two subtractions are one, with the operands exchanged. -/
theorem subtractsWriteDifferenceAndNotBorrow : Obligations.SubtractsWriteDifferenceAndNotBorrow :=
  fun x y s => ⟨⟨_, rfl, setDifference_spec s x (s.getV x) (s.getV y)⟩,
    ⟨_, rfl, setDifference_spec s x (s.getV y) (s.getV x)⟩⟩

theorem flagByte_toNat (f : Bool) : (flagByte f).toNat = f.toNat := by
  cases f <;> rfl

theorem shiftedOutRight_toNat (a : Byte) : (shiftedOutRight a).toNat = a.toNat % 2 := by
  rw [shiftedOutRight, BitVec.getLsbD, Nat.toNat_testBit, Nat.pow_zero, Nat.div_one]

theorem shiftedOutLeft_toNat (a : Byte) : (shiftedOutLeft a).toNat = a.toNat / 128 := by
  have ha : a.toNat < 2 ^ 8 := a.isLt
  rw [shiftedOutLeft, BitVec.getLsbD, Nat.toNat_testBit]
  omega

/-- Settles O28: a shift by one place is a halving or a doubling, and VF gets its remainder or its carry. -/
theorem shiftsMoveVxByOneAndIgnoreY : Obligations.ShiftsMoveVxByOneAndIgnoreY := by
  intro x y s
  obtain ⟨hHalf, hLow, hOnlyR⟩ := setFlagThenResult_spec s x (shiftedOutRight (s.getV x)) (s.getV x >>> 1)
  obtain ⟨hDouble, hHigh, hOnlyL⟩ := setFlagThenResult_spec s x (shiftedOutLeft (s.getV x)) (s.getV x <<< 1)
  refine ⟨⟨_, rfl, ?_, fun hx => ?_, hOnlyR⟩, ⟨_, rfl, ?_, fun hx => ?_, hOnlyL⟩, fun _ => ⟨rfl, rfl⟩⟩
  · rw [hHalf, BitVec.toNat_ushiftRight, Nat.shiftRight_eq_div_pow]
  · rw [hLow hx, flagByte_toNat, shiftedOutRight_toNat]
  · rw [hDouble, BitVec.toNat_shiftLeft, Nat.shiftLeft_eq, Nat.mul_comm]
  · rw [hHigh hx, flagByte_toNat, shiftedOutLeft_toNat]

/-- Settles O29: nothing is asked of the byte drawn. -/
theorem rndMasksAFreeByte : Obligations.RndMasksAFreeByte := by
  intro x b s
  have hMasked : (s.setV x (s.randomByte &&& b)).getV x = s.randomByte &&& b := State.setV_getV_same s x _
  refine ⟨_, rfl, hMasked, ?_, fun r hr => State.setV_getV_other s _ hr.symm, fun _ => rfl, rfl⟩
  have hOutside : s.randomByte &&& b &&& ~~~b = 0 := by
    rw [BitVec.and_assoc, BitVec.and_not_self]
    exact BitVec.and_zero
  exact (congrArg (· &&& ~~~b) hMasked).trans hOutside

/-! ### Index, keys, timers -/

/-- Settles O31: five times a byte stays below 2^16. -/
theorem addIAndGlyphAddressSetI : Obligations.AddIAndGlyphAddressSetI := by
  intro x s
  refine ⟨⟨_, rfl, ?_, rfl⟩, ⟨_, rfl, ?_, rfl⟩⟩
  · simp only [State.setI_i, zextByte]
    bv_omega
  · simp only [State.setI_i, glyphAddress, zextByte]
    bv_omega

theorem keyPressed_iff {keys : BitVec 16} {k : Nat} : keyPressed keys k = true ↔ k < 16 ∧ keys.getLsbD k = true := by
  rw [keyPressed, Bool.and_eq_true, decide_eq_true_eq]

/-- Settles O44: the condition of both skips is `keyPressed` of the whole byte. -/
theorem skipsOnKeysTestTheWholeByte : Obligations.SkipsOnKeysTestTheWholeByte := by
  intro x s
  simp only [← keyPressed_iff]
  refine ⟨congrArg Host.Outcome.next (skipIf_eq_with s _), congrArg Host.Outcome.next ((skipIf_eq_with s _).trans ?_)⟩
  cases keyPressed s.keys (s.getV x).toNat <;> rfl

/-- Settles O45: what `lowestKey` finds, by its two laws. -/
theorem ldVxKTakesTheLowestKeyOrGoesBack : Obligations.LdVxKTakesTheLowestKeyOrGoesBack := by
  intro x s
  refine ⟨fun hKeys => ?_, fun hNone => exec_ldVxK_none x (lowestKey_eq_none.mpr hNone)⟩
  obtain ⟨k, hk⟩ := Option.ne_none_iff_exists'.mp (mt lowestKey_eq_none.mp hKeys)
  obtain ⟨hLt, hPressed, hLowest⟩ := lowestKey_eq_some.mp hk
  refine ⟨_, k, exec_ldVxK_some x hk, hLt, hPressed, hLowest, ?_, State.setV_onlyRegisters s x _⟩
  rw [State.setV_getV_same]
  exact (BitVec.toNat_ofNat k 8).trans (Nat.mod_eq_of_lt (by omega))

/-- Settles O47: each is one write. -/
theorem timerMovesCopyOneByte : Obligations.TimerMovesCopyOneByte :=
  fun x s => ⟨⟨_, rfl, State.setV_getV_same s x s.dt, State.setV_onlyRegisters s x s.dt⟩, rfl, rfl⟩

/-! ### Resets, press and release -/

/-- Settles O49: both resets give the same values to all that is not memory or keys. -/
theorem resetsClearTheCore : Obligations.ResetsClearTheCore := by
  refine ⟨rfl, fun _ _ => rfl, fun _ => rfl, ?_⟩
  have hRegs : ∀ r : Reg, (Vector.replicate 16 (0 : Byte))[r.val] = 0 := fun r => Vector.getElem_replicate ..
  rintro c s t (rfl | rfl)
  · exact ⟨hRegs, rfl, rfl, rfl, rfl, rfl, rfl, Display.blank_read, rfl, rfl, rfl, rfl, rfl, rfl⟩
  · exact ⟨hRegs, rfl, rfl, rfl, rfl, rfl, rfl, Display.blank_read, rfl, rfl, rfl, rfl, rfl, rfl⟩

theorem keyMask_getLsbD {j k : Nat} (hj : j < 16) : (keyMask k).getLsbD j = decide (j = k) := by
  rw [keyMask, BitVec.getLsbD_shiftLeft, BitVec.getLsbD_one]
  by_cases h : j = k
  · simp [h, h ▸ hj]
  · simp [h]
    omega

theorem press_getLsbD (s : State) (k : Nat) {j : Nat} (hj : j < 16) :
    (s.press k).keys.getLsbD j = if j = k then true else s.keys.getLsbD j := by
  unfold State.press
  split
  · rw [BitVec.getLsbD_or, keyMask_getLsbD hj]
    by_cases h : j = k <;> simp [h]
  · rw [if_neg (by omega)]

theorem release_getLsbD (s : State) (k : Nat) {j : Nat} (hj : j < 16) :
    (s.release k).keys.getLsbD j = if j = k then false else s.keys.getLsbD j := by
  unfold State.release
  split
  · rw [BitVec.getLsbD_and, BitVec.getLsbD_not, keyMask_getLsbD hj]
    by_cases h : j = k <;> simp [h, hj]
  · rw [if_neg (by omega)]

/-- Settles O50: the mask of a key has its one bit. -/
theorem pressAndReleaseChangeOneKeyBit : Obligations.PressAndReleaseChangeOneKeyBit :=
  fun s k => ⟨fun _ => press_getLsbD s k, press_frame s k, fun _ => release_getLsbD s k, release_frame s k,
    fun hk => ⟨if_neg (Nat.not_lt.mpr hk), if_neg (Nat.not_lt.mpr hk)⟩⟩

end Sys2Proof.Proofs
